-- ==== Sys2Proof/Word.lean ====
section
/-! DEFINITION. The engine's data types: Byte, word, block, State grid (rules R8, R11, R21), and nothing that computes. -/

namespace Sys2Proof

/-- A Byte: an unsigned 8-bit value, bit 7 the most significant (R8, R56). -/
abbrev Byte := BitVec 8

/-- A word: an ordered 4-tuple of Bytes `(b0, b1, b2, b3)` (R11); never a number. -/
abbrev Word := Vector Byte 4

/-- A block or a key: 16 Bytes, byte 0 first (R6, R53). -/
abbrev Block := Vector Byte 16

/-- The 4 rows by 4 columns of the State matrix, addressed `g[row][col]` (R21). -/
abbrev Grid := Vector (Vector Byte 4) 4

/-- The 44 words of a key schedule, all of them known (R24). -/
abbrev KeyWords := Vector Word 44

end Sys2Proof
end

