-- ==== Sys2Proof/Config.lean ====
section
/-! DEFINITION. What the spec fixes as constants (rule R6), the one parameter reset needs, N_LANES (rule R7), and the bit
pattern the storage elements come up with, which no source gives (rule R271). -/

namespace Sys2Proof.Config

/-- `BLOCK_BYTES` and `KEY_BYTES`: the one legal length of a data operand (R6). -/
def blockBytes : Nat := 16

/-- `NR`: the number of rounds, and the largest round-key index (R6). -/
def rounds : Nat := 10

/-- `N_WORDS`: the number of round-key words (R6). -/
def keyWords : Nat := 44

/-- `NK`: the words copied from the Cipher Key, and the stride of the recurrence (R6). -/
def keyStride : Nat := 4

/-- `N_LANES` of the machine `State.reset` builds: the spec's default, 1 (R7, D20). The other definitions and
the statements hold for any number of lanes (notes/assumptions/2.md). -/
def nLanes : Nat := 1

/-- The bit pattern the elements without a reset value come up with, Byte by Byte: "some bit pattern, but no source says
which" (R271). A FREE VALUE: it has no body, so no proof can say what it is (notes/assumptions/24.md). `W[i]` comes up
with Bytes `4i ..`; lane `n` with 48 Bytes from `176 + 48n`: S column-major, DIN, DOUT. -/
opaque powerOnByte : Nat → Byte

end Sys2Proof.Config
end

