-- ==== Sys2Proof/Syntax.lean ====
section
/-! DEFINITION. The encoded operations (rule R94): one constructor per row of spec/opcode_table.json, and the
request the host presents (rule R81). -/

namespace Sys2Proof

/-- The three host commands (format H) and the ten micro-operations (format U). -/
inductive Instr where
  /-- `KEYEXP`: construct the key schedule from the data operand (R208). -/
  | keyexp (data : List Byte)
  /-- `ENC`: encrypt one block (R206). -/
  | enc (data : List Byte)
  /-- `DEC`: decrypt one block (R207). -/
  | dec (data : List Byte)
  /-- `LDST`: load the block into the State (R151). -/
  | ldst
  /-- `STST`: extract the State to the output block (R152). -/
  | stst
  /-- `SUB`: Substitute (R153). -/
  | sub
  /-- `SHR`: Shift-Rows (R155). -/
  | shr
  /-- `MIX`: Mix-Columns (R158). -/
  | mix
  /-- `ISUB`: Inverse-Substitute (R154). -/
  | isub
  /-- `ISHR`: Inverse-Shift-Rows (R156). -/
  | ishr
  /-- `IMIX`: Inverse-Mix-Columns (R159). -/
  | imix
  /-- `ARK r`: Add-Round-Key with round key `r`, an unsigned 4-bit index (R86, R160). -/
  | ark (r : BitVec 4)
  /-- `KXW i`: compute round-key word `i`, an unsigned 6-bit index (R87, R184). -/
  | kxw (i : BitVec 6)
  deriving DecidableEq, Repr

/-- The two code spaces of encoded operations (R80, R94). -/
inductive Format where
  /-- The host command byte of a request. -/
  | H
  /-- The micro-operation word of the micro-program. -/
  | U
  deriving DecidableEq, Repr

/-- A request `(cmd, len, data)`; `len` is `data.length` (R81). -/
structure Request where
  /-- The format-H byte, of any value. -/
  cmd  : Byte
  /-- The data operand, first Byte first (R53), of any finite length. -/
  data : List Byte
  deriving DecidableEq, Repr

/-- The code space an operation is encoded in (R94). -/
def Instr.format : Instr → Format
  | .keyexp _ => .H
  | .enc _ => .H
  | .dec _ => .H
  | .ldst => .U
  | .stst => .U
  | .sub => .U
  | .shr => .U
  | .mix => .U
  | .isub => .U
  | .ishr => .U
  | .imix => .U
  | .ark _ => .U
  | .kxw _ => .U

/-- The data operand of a host command; a micro-operation has none (R90). -/
def Instr.data : Instr → List Byte
  | .keyexp d => d
  | .enc d => d
  | .dec d => d
  | .ldst => []
  | .stst => []
  | .sub => []
  | .shr => []
  | .mix => []
  | .isub => []
  | .ishr => []
  | .imix => []
  | .ark _ => []
  | .kxw _ => []

end Sys2Proof
end

