-- ==== Sys2Proof/WellFormed.lean ====
section
/-! DEFINITION. Which terms of `Instr` are encodings the engine has (rules R86, R87, R94). A data operand of any
length is a legal request (rule R81): a wrong length is answered with a status, it is not an ill-formed command. -/

namespace Sys2Proof

/-- `ARK r` has `r <= 10`, `KXW i` has `i <= 43`; every other term is well formed. -/
def Instr.wellFormed : Instr → Bool
  | .keyexp _ => true
  | .enc _ => true
  | .dec _ => true
  | .ldst => true
  | .stst => true
  | .sub => true
  | .shr => true
  | .mix => true
  | .isub => true
  | .ishr => true
  | .imix => true
  | .ark r => decide (r.toNat ≤ Config.rounds)
  | .kxw i => decide (i.toNat < Config.keyWords)

end Sys2Proof
end

