-- ==== Sys2Proof/Decode.lean ====
section
/-! DEFINITION. Decoding of the two code spaces (rules R82, R84 to R89, R94), the opcode map as data, the encoder, and
the host's reading of a table word. -/

namespace Sys2Proof

/-- Why a byte is no operation of its code space. -/
inductive Reject where
  /-- A reserved format-H byte, 0x00 or 0x04..0xFF (R89). -/
  | reservedCommand (cmd : Byte)
  /-- A reserved format-U word (R88). -/
  | reservedMicroOp (word : Byte)
  deriving DecidableEq, Repr

/-- The class field `cls = word[7:6]` of a format-U word (R84). -/
def cls (word : Byte) : BitVec 2 := word.extractLsb' 6 2

/-- The argument field `arg = word[5:0]` of a format-U word (R84). -/
def arg (word : Byte) : BitVec 6 := word.extractLsb' 0 6

/-- The sub-operation codes of class `00` (R85). -/
def decodeClass00 (word : Byte) : Except Reject Instr :=
  if word = 0x01 then .ok .ldst
  else if word = 0x02 then .ok .stst
  else if word = 0x03 then .ok .sub
  else if word = 0x04 then .ok .shr
  else if word = 0x05 then .ok .mix
  else if word = 0x06 then .ok .isub
  else if word = 0x07 then .ok .ishr
  else if word = 0x08 then .ok .imix
  else .error (.reservedMicroOp word)

/-- Class `01`: `arg[5:4]` must be `00`, and `r = word[3:0]` at most 10 (R84, R86). -/
def decodeClass01 (word : Byte) : Except Reject Instr :=
  if (arg word).extractLsb' 4 2 = 0 ∧ (word.extractLsb' 0 4).toNat ≤ Config.rounds then
    .ok (.ark (word.extractLsb' 0 4))
  else .error (.reservedMicroOp word)

/-- Class `10`: `i = word[5:0]`, at most 43 (R84, R87). -/
def decodeClass10 (word : Byte) : Except Reject Instr :=
  if (arg word).toNat < Config.keyWords then .ok (.kxw (arg word))
  else .error (.reservedMicroOp word)

/-- Decode a format-U word: total, rejecting each reserved word by name (R84 to R88). -/
def decodeU (word : Byte) : Except Reject Instr :=
  if cls word = 0b00 then decodeClass00 word
  else if cls word = 0b01 then decodeClass01 word
  else if cls word = 0b10 then decodeClass10 word
  else .error (.reservedMicroOp word)

/-- Decode a request's command byte, a full 8-bit compare; the data operand goes with it (R82, R89, R90). -/
def decodeH (cmd : Byte) (data : List Byte) : Except Reject Instr :=
  if cmd = 0x01 then .ok (.keyexp data)
  else if cmd = 0x02 then .ok (.enc data)
  else if cmd = 0x03 then .ok (.dec data)
  else .error (.reservedCommand cmd)

/-- Decode in a named code space: a host byte is never read as a micro-operation word, nor the reverse (R94). -/
def decode (f : Format) (word : Byte) (data : List Byte) : Except Reject Instr :=
  match f with
  | .H => decodeH word data
  | .U => decodeU word

/-! ## The encoder -/

/-- The format-H byte or format-U word of an operation (R82, R85 to R87). -/
def encode : Instr → Byte
  | .keyexp _ => 0x01
  | .enc _ => 0x02
  | .dec _ => 0x03
  | .ldst => 0x01
  | .stst => 0x02
  | .sub => 0x03
  | .shr => 0x04
  | .mix => 0x05
  | .isub => 0x06
  | .ishr => 0x07
  | .imix => 0x08
  | .ark r => 0x40 ||| r.setWidth 8
  | .kxw i => 0x80 ||| i.setWidth 8

/-! ## The opcode map of rule R94 as data -/

/-- One row of the opcode map: code space, name, match and mask. -/
structure OpcodeRow where
  format   : Format
  mnemonic : String
  matched  : Byte
  mask     : Byte
  deriving DecidableEq, Repr

/-- The format-H rows (R94). -/
def hostRows : List OpcodeRow :=
  [⟨.H, "KEYEXP", 0x01, 0xFF⟩, ⟨.H, "ENC", 0x02, 0xFF⟩, ⟨.H, "DEC", 0x03, 0xFF⟩]

/-- The format-U rows (R94). -/
def microRows : List OpcodeRow :=
  [⟨.U, "LDST", 0x01, 0xFF⟩, ⟨.U, "STST", 0x02, 0xFF⟩, ⟨.U, "SUB", 0x03, 0xFF⟩, ⟨.U, "SHR", 0x04, 0xFF⟩,
   ⟨.U, "MIX", 0x05, 0xFF⟩, ⟨.U, "ISUB", 0x06, 0xFF⟩, ⟨.U, "ISHR", 0x07, 0xFF⟩, ⟨.U, "IMIX", 0x08, 0xFF⟩,
   ⟨.U, "ARK", 0x40, 0xF0⟩, ⟨.U, "KXW", 0x80, 0xC0⟩]

/-- The row an operation is an instance of (R94). -/
def Instr.row : Instr → OpcodeRow
  | .keyexp _ => ⟨.H, "KEYEXP", 0x01, 0xFF⟩
  | .enc _ => ⟨.H, "ENC", 0x02, 0xFF⟩
  | .dec _ => ⟨.H, "DEC", 0x03, 0xFF⟩
  | .ldst => ⟨.U, "LDST", 0x01, 0xFF⟩
  | .stst => ⟨.U, "STST", 0x02, 0xFF⟩
  | .sub => ⟨.U, "SUB", 0x03, 0xFF⟩
  | .shr => ⟨.U, "SHR", 0x04, 0xFF⟩
  | .mix => ⟨.U, "MIX", 0x05, 0xFF⟩
  | .isub => ⟨.U, "ISUB", 0x06, 0xFF⟩
  | .ishr => ⟨.U, "ISHR", 0x07, 0xFF⟩
  | .imix => ⟨.U, "IMIX", 0x08, 0xFF⟩
  | .ark _ => ⟨.U, "ARK", 0x40, 0xF0⟩
  | .kxw _ => ⟨.U, "KXW", 0x80, 0xC0⟩

/-! ## The host's reading of a table word -/

/-- The first Byte of a table word: the command byte or micro-operation word. -/
def tableByte (nbits w : Nat) : Byte := BitVec.ofNat 8 (w % 2 ^ nbits)

/-- The 16 Bytes that follow it, zero where the table gives the row no bits: the data operand of a command. -/
def tableData (nbits w : Nat) : List Byte :=
  (List.range Config.blockBytes).map fun k => BitVec.ofNat 8 ((w % 2 ^ nbits) >>> (8 * (k + 1)))

/-- The operation a table word stands for. The table does not say which code space a word is of, and the words 0x01 to
0x03 are operations of both; the host's port, where a machine after reset reads its next operation, is asked
first, the micro-program's code space for every other word. DESIGN CHOICE, notes/assumptions/12.md. -/
def decodeTableWord (nbits w : Nat) : Option Instr :=
  match decodeH (tableByte nbits w) (tableData nbits w) with
  | .ok i => some i
  | .error _ =>
    match decodeU (tableByte nbits w) with
    | .ok i => some i
    | .error _ => none

end Sys2Proof
end

