-- ==== Sys2Proof/Machine/State.lean ====
section
/-! DEFINITION. Everything the spec gives the machine (rule R35), the interface values of its transactions (rules R81,
R83), the ways a step can stop, and the state after reset (rule R270). -/

namespace Sys2Proof.Machine

/-- The status of a response (R240); `code` below gives the format-S byte. -/
inductive Status where
  | ok
  /-- `KEYEXP` with `len != 16` (R241). -/
  | errKeyLen
  /-- `ENC` or `DEC` with `len != 16` (R242). -/
  | errBlkLen
  /-- `ENC` or `DEC` with `KEY_VALID == 0` (R243). -/
  | errNoSched
  /-- A reserved command byte (R244). -/
  | errCmd
  deriving DecidableEq, Repr

/-- A response `(status, out)`; `out` is empty where the spec says it is absent (R83). -/
structure Response where
  status : Status
  out    : List Byte
  deriving DecidableEq, Repr

/-- What a storage element holds. It always holds a bit pattern (R271, R23); `noValue` says that the spec gives the
element "no value": nothing has written it since reset, or its content was discarded, and its pattern may not be read
(R35, R205, R272; notes/assumptions/1.md). -/
inductive Content (α : Type) where
  /-- No value, the unspecified pattern being `bits`. -/
  | noValue (bits : α)
  /-- The value `v`. -/
  | holds (v : α)
  deriving DecidableEq, Repr

/-- The bit pattern in an element, value or not. No meaning reads it: `value?` is what the machine reads. -/
def Content.bits {α : Type} : Content α → α
  | .noValue b => b
  | .holds v => v

/-- What reading an element gives: its value, if it holds one (R272). -/
def Content.value? {α : Type} : Content α → Option α
  | .noValue _ => none
  | .holds v => some v

/-- Discard an element's value; the bit pattern stays where it is (R23, R205). -/
def Content.discard {α : Type} (c : Content α) : Content α := .noValue c.bits

/-- One lane: its own S, DIN, DOUT, BUSY, UPC (R34), and its interface. -/
structure Lane where
  /-- `S`, the State matrix (R21); all 16 Bytes are written at once (R59). -/
  grid : Content Grid
  /-- `DIN`, the input block buffer (R27). -/
  din  : Content Block
  /-- `DOUT`, the output block buffer (R27). -/
  dout : Content Block
  /-- `BUSY` (R28). -/
  busy : Bool
  /-- `UPC`, the micro-program counter (R29). -/
  upc  : BitVec 7
  /-- The model's own: the request presented to this lane (held while it cannot be accepted, R274), then those the
  host presents after it, in order (notes/assumptions/4.md). -/
  port : List Request
  /-- The model's own: the responses this lane has given, oldest first (R213; notes/assumptions/5.md). -/
  resp : List Response
  deriving DecidableEq, Repr

/-- What the outside decides: which lane moves next (R211, R275), or a reset event (R270). -/
inductive Event where
  | turn (lane : Nat)
  | reset
  deriving DecidableEq, Repr

/-- The engine. Its lanes, numbered from 0, are `lower`, then `lane`, then `upper`: `lane` is the one that moves.
With one lane (the default, R7) `lower` and `upper` are empty. -/
structure State where
  /-- `W[0..43]`, shared (R24, R35). -/
  w        : Vector (Content Word) 44
  /-- `KEY_VALID`, shared (R26). -/
  keyValid : Bool
  /-- The lanes numbered below the one that moves. -/
  lower    : List Lane
  /-- The lane that moves. -/
  lane     : Lane
  /-- The lanes numbered above the one that moves. -/
  upper    : List Lane
  /-- The model's own: what the outside decides next, the first entry at the next step (notes/assumptions/3.md). -/
  schedule : List Event
  deriving DecidableEq, Repr

/-- Why the machine stops. Both are the spec's faults of the model (R249), which no run from reset reaches; both are
safe: they make claims unprovable, never false. -/
inductive Fault where
  /-- Raised by a micro-operation, or by the response of a completing one, that reads an element holding no value: the
  spec's own stop, "never a value: not zero" (R249, R272; 93_implementation_defined.md U2). Safe. -/
  | noValueRead
  /-- Raised by the micro-step on a reserved format-U word, and by a micro-operation whose operand is out of the range
  its encoding has (R88). Safe. -/
  | badMicroOp
  deriving DecidableEq, Repr

/-- Why an instruction has no meaning here. Raised by no instruction of this model. -/
inductive Refusal where
  /-- An instruction exec rejects by name. Raised by nothing: every arm has its meaning. Safe. -/
  | notModelled (mnemonic : String)
  deriving DecidableEq, Repr

/-- The first index of lane `n`'s 48 Bytes in `Config.powerOnByte`. -/
def Lane.powerOnBase (n : Nat) : Nat := 176 + 48 * n

/-- Lane `n` after reset: exactly the last column of R35's table, "no value" for S, DIN and DOUT, each with the bit
pattern it comes up with (R270, R271); nothing presented and no response given. -/
def Lane.resetAt (n : Nat) : Lane where
  grid := .noValue (Vector.ofFn fun row => Vector.ofFn fun col =>
    Config.powerOnByte (Lane.powerOnBase n + 4 * col.val + row.val))
  din  := .noValue (Vector.ofFn fun k => Config.powerOnByte (Lane.powerOnBase n + 16 + k.val))
  dout := .noValue (Vector.ofFn fun k => Config.powerOnByte (Lane.powerOnBase n + 32 + k.val))
  busy := false
  upc  := 0
  port := []
  resp := []

/-- `W` after reset: no word holds a value (R35, R270, R271). -/
def resetW : Vector (Content Word) 44 :=
  Vector.ofFn fun i => .noValue (Vector.ofFn fun j => Config.powerOnByte (4 * i.val + j.val))

/-- The engine after reset with `n + 1` lanes: lane 0 and `n` more (R270, R34). -/
def State.resetLanes (n : Nat) : State where
  w        := resetW
  keyValid := false
  lower    := []
  lane     := Lane.resetAt 0
  upper    := (List.range n).map fun k => Lane.resetAt (k + 1)
  schedule := []

/-- The engine after reset, with the default number of lanes (R7, R270). -/
def State.reset : State := State.resetLanes (Config.nLanes - 1)

/-- All lanes, in the order of their numbers (R34). -/
def State.lanes (s : State) : List Lane := s.lower ++ s.lane :: s.upper

/-- The number of the lane that moves. -/
def State.laneNo (s : State) : Nat := s.lower.length

end Sys2Proof.Machine
end

