-- ==== Sys2Proof/Machine/Ops.lean ====
section
/-! DEFINITION. The named operations on the machine: index maps, reading and writing its elements, the one-Byte view of
its index spaces, the response and the error (`raise`), the start of a transaction, the reset event, and which lane
moves. Every read and write of a meaning goes through here. -/

namespace Sys2Proof.Machine

/-- The outcome of one step of this machine. -/
abbrev Result := Host.Outcome State Fault Refusal

/-! ## Index maps -/

/-- `S[row][col]`: one entry of a grid (R21). -/
def cell (g : Grid) (row col : Fin 4) : Byte := g[row][col]

/-- Byte `n` of a block (R27). -/
def blockByte (b : Block) (n : Fin 16) : Byte := b[n]

/-- Byte `j` of a word, `W[i][j]` (R11). -/
def wordByte (v : Word) (j : Fin 4) : Byte := v[j]

/-- Build a block from its Bytes. -/
def blockOf (f : Fin 16 → Byte) : Block := Vector.ofFn f

/-- Build a word from its Bytes. -/
def wordOf (f : Fin 4 → Byte) : Word := Vector.ofFn f

/-- Build a grid from its entries; all 16 are evaluated from the old values (the `forall` of R10). -/
def gridOf (f : Fin 4 → Fin 4 → Byte) : Grid :=
  Vector.ofFn fun row => Vector.ofFn fun col => f row col

/-- `idx(row, col) = 4*col + row`: the column-major index of a grid entry in a block (R52). -/
def blockIndex (row col : Fin 4) : Fin 16 := ⟨4 * col.val + row.val, by omega⟩

/-- The row of block Byte `n` (R52). -/
def blockRow (n : Fin 16) : Fin 4 := ⟨n.val % 4, by omega⟩

/-- The column of block Byte `n` (R52). -/
def blockCol (n : Fin 16) : Fin 4 := ⟨n.val / 4, by omega⟩

/-- A block as a grid: `state[row][col] = block[4*col + row]` (R52, R151). -/
def gridOfBlock (b : Block) : Grid := gridOf fun row col => blockByte b (blockIndex row col)

/-- A grid as a block, the inverse layout (R52, R152). -/
def blockOfGrid (g : Grid) : Block := blockOf fun n => cell g (blockRow n) (blockCol n)

/-- The data operand as a block, when `len == 16` (R81, R201). -/
def blockOfBytes? (data : List Byte) : Option Block :=
  if data.length = Config.blockBytes then some (blockOf fun n => data.getD n.val 0) else none

/-! ## Reading -/

/-- Go on with what reading an element gave; where it holds no value, the model fault NoValueRead (R249, R272). -/
def withValue {α : Type} (o : Option α) (k : α → Result) : Result :=
  match o with
  | some v => k v
  | none => .fault .noValueRead

/-- Round-key word `n`, if it holds a value; the engine forms no index above 43 (R24, R50). -/
def readW (n : Nat) (s : State) : Option Word := s.w[n]?.bind Content.value?

/-! ## Writing -/

/-- `S <- g`, all 16 Bytes of the moving lane's State (R59). -/
def writeGrid (g : Grid) (s : State) : State := { s with lane := { s.lane with grid := .holds g } }

/-- `DOUT <- b`, all 16 Bytes (R27). -/
def writeDout (b : Block) (s : State) : State := { s with lane := { s.lane with dout := .holds b } }

/-- `W[n] <- v` (R24). -/
def writeW (n : Nat) (v : Word) (s : State) : State := { s with w := s.w.setIfInBounds n (.holds v) }

/-- `upc <- upc + 1`, the end of every micro-operation (R29, R150). -/
def advance (s : State) : State := { s with lane := { s.lane with upc := s.lane.upc + 1 } }

/-! ## The index spaces, Byte by Byte -/

/-- The six index spaces (R50). -/
inductive Space where
  | sbox | isbox | rcon | rk | din | dout
  deriving DecidableEq, Repr

/-- The number of Bytes of a space (R50). -/
def Space.size : Space → Nat
  | .sbox => 256
  | .isbox => 256
  | .rcon => 256
  | .rk => 176
  | .din => 16
  | .dout => 16

/-- `MemRead(space, a, 1)` on the moving lane: the Byte at index `a`, or `none` where the space has no such index or the
element holds no value (R10, R50). `RKB[4*i + j] = W[i][j]` (R25). A read changes nothing (R51). -/
def readByte (sp : Space) (a : Nat) (s : State) : Option Byte :=
  match sp with
  | .sbox => if a < 256 then some (Machine.sbox (BitVec.ofNat 8 a)) else none
  | .isbox => if a < 256 then some (Machine.isbox (BitVec.ofNat 8 a)) else none
  | .rcon => if a < 256 then some (Machine.rcon (BitVec.ofNat 8 a)) else none
  | .rk => (readW (a / 4) s).bind fun v => v[a % 4]?
  | .din => s.lane.din.value?.bind fun b => b[a]?
  | .dout => s.lane.dout.value?.bind fun b => b[a]?

/-! ## Responses and errors -/

/-- The format-S byte of a status (R240). -/
def Status.code : Status → Byte
  | .ok => 0x00
  | .errKeyLen => 0x01
  | .errBlkLen => 0x02
  | .errNoSched => 0x03
  | .errCmd => 0x04

/-- Produce a response on the moving lane; no state element of R35 changes (R83, R213). -/
def respond (st : Status) (out : List Byte) (s : State) : State :=
  { s with lane := { s.lane with resp := s.lane.resp ++ [⟨st, out⟩] } }

/-- `raise E`: the transaction ends at once with response `(E, -)`. No state element changes, nothing is saved, control
goes nowhere, and there is nothing to return from (R246, R247). -/
def raise (e : Status) (s : State) : State := respond e [] s

/-! ## Transactions -/

/-- The first micro-program entry of `ENC` (R29, R201). -/
def encEntry : BitVec 7 := 0

/-- The first micro-program entry of `DEC` (R29, R201). -/
def decEntry : BitVec 7 := 42

/-- The first micro-program entry of `KEYEXP` (R29, R201). -/
def keyexpEntry : BitVec 7 := 84

/-- Step 4 of acceptance for a block command: `DIN <- data`, `BUSY <- 1`, `upc <- entry` (R201). -/
def start (entry : BitVec 7) (b : Block) (s : State) : State :=
  { s with lane := { s.lane with din := .holds b, busy := true, upc := entry } }

/-- The end of a run: `BUSY <- 0`, `upc <- 0`, and the State is discarded, its bit pattern staying; DIN and DOUT keep their
values (R205, R23). -/
def goIdle (s : State) : State :=
  { s with lane := { s.lane with grid := s.lane.grid.discard, busy := false, upc := 0 } }

/-- Take the presented request off the moving lane's port. -/
def takeRequest (s : State) : State := { s with lane := { s.lane with port := s.lane.port.tail } }

/-! ## Reset -/

/-- Lane `n`'s elements at their values after reset (R35, R270). The requests the host still presents and the responses
it already has are the outside's, not the engine's (notes/assumptions/11.md). -/
def resetLane (n : Nat) (l : Lane) : Lane :=
  { Lane.resetAt n with port := l.port, resp := l.resp }

/-- Reset lanes numbered from `n` on. -/
def resetLanesFrom (n : Nat) : List Lane → List Lane
  | [] => []
  | l :: ls => resetLane n l :: resetLanesFrom (n + 1) ls

/-- The reset event: the whole engine, all lanes together; a transaction in progress is abandoned without a response
(R270). -/
def resetEngine (s : State) : State :=
  { s with
    w := resetW
    keyValid := false
    lower := resetLanesFrom 0 s.lower
    lane := resetLane s.laneNo s.lane
    upper := resetLanesFrom (s.laneNo + 1) s.upper }

/-! ## Which lane moves -/

/-- Make lane `k` the one that moves; where there is no lane `k`, the moving lane stays (notes/assumptions/18.md). -/
def focus (k : Nat) (s : State) : State :=
  match s.lanes.drop k with
  | l :: above => { s with lower := s.lanes.take k, lane := l, upper := above }
  | [] => s

/-- Make the next lane in turn the one that moves, the lanes in a ring: what the model does where the schedule names no
lane (notes/assumptions/3.md). -/
def focusNext (s : State) : State := focus ((s.laneNo + 1) % s.lanes.length) s

end Sys2Proof.Machine
end

