-- ==== Sys2Proof/Machine/Flags.lean ====
section
/-! DEFINITION. The engine's only 1-bit elements, KEY_VALID and BUSY, and the acceptance conditions read from them (rules
R26, R28, R30, R201, R274, R275). There are no condition codes and no arithmetic flags (rule R30). -/

namespace Sys2Proof.Machine

/-- `KEY_VALID <- v` (R26). -/
def setKeyValid (v : Bool) (s : State) : State := { s with keyValid := v }

/-- A `KEYEXP` is running on this lane: it is busy in the key-expansion part of the micro-program, entries 84..127
(R202; notes/assumptions/19.md). -/
def Lane.runsKeyexp (l : Lane) : Bool := l.busy && decide (keyexpEntry.toNat ≤ l.upc.toNat)

/-- Every lane is idle (R275). -/
def allIdle (s : State) : Bool := s.lanes.all fun l => !l.busy

/-- The moving lane is idle, and no `KEYEXP` runs on any lane (R274, R275). -/
def laneOpen (s : State) : Bool := !s.lane.busy && s.lanes.all fun l => !l.runsKeyexp

/-- Whether a request with this command byte, presented to the moving lane, is accepted now or held (R201, R274, R275). -/
def canAccept (cmd : Byte) (s : State) : Bool := if cmd = 0x01 then allIdle s else laneOpen s

end Sys2Proof.Machine
end

