-- ==== Sys2Proof/Machine/Operands.lean ====
section
/-! DEFINITION. The operand forms: the words of a round key `r` (rules R86, R160), the key word read from DIN and the words
read from W by `KXW i` (rules R54, R87, R184), and Byte-wise exclusive-or (rule R9). -/

namespace Sys2Proof.Machine

/-- Byte-wise exclusive-or of two words (R9, R11). -/
def xorWord (u v : Word) : Word := wordOf fun j => wordByte u j ^^^ wordByte v j

/-- Round key `r`: the words `W[4r]`, `W[4r+1]`, `W[4r+2]`, `W[4r+3]`, if all four hold values (R25, R86). -/
def readRoundKey (r : Nat) (s : State) : Option (Vector Word 4) :=
  match readW (4 * r) s, readW (4 * r + 1) s, readW (4 * r + 2) s, readW (4 * r + 3) s with
  | some k0, some k1, some k2, some k3 => some #v[k0, k1, k2, k3]
  | _, _, _, _ => none

/-- Word `i` of a key, `i < 4`: key Bytes `4i .. 4i+3`, first Byte first (R54). -/
def keyWord (b : Block) (i : Nat) : Word := wordOf fun j => b.toList.getD (4 * i + j.val) 0

end Sys2Proof.Machine
end

