-- ==== Sys2Proof/Machine/HostCommands.lean ====
section
/-! DEFINITION. The host commands `KEYEXP`, `ENC`, `DEC` at their acceptance: the checks in their order, the error responses,
and the start of the run (rules R201, R206 to R208, R241 to R246). The run itself is the micro-program
(Machine/Sequencer.lean); the whole transaction as one function is in Machine/Transaction.lean (rule R212). -/

namespace Sys2Proof.Machine

/-- `KEYEXP data` presented to the moving lane: held unless every lane is idle (R275); ERR_KEYLEN if `len != 16` (R241);
else `DIN <- data`, `KEY_VALID <- 0`, and the run from entry 84 (R201, R208). -/
def execKeyexp (data : List Byte) (s : State) : Result :=
  if canAccept 0x01 s then
    match blockOfBytes? data with
    | none => .next (raise .errKeyLen s)
    | some b => .next (start keyexpEntry b (setKeyValid false s))
  else .next s

/-- The shape of a block command: held unless the lane is open (R274, R275); ERR_BLKLEN if `len != 16`; ERR_NOSCHED if
`KEY_VALID == 0` (the hardware's defined status, notes/assumptions/6.md); else the run from `entry` (R201, R242, R243,
R245). -/
def blockCommand (cmd : Byte) (entry : BitVec 7) (data : List Byte) (s : State) : Result :=
  if canAccept cmd s then
    match blockOfBytes? data with
    | none => .next (raise .errBlkLen s)
    | some b => if s.keyValid then .next (start entry b s) else .next (raise .errNoSched s)
  else .next s

/-- `ENC data` (R206): the run from entry 0. -/
def execEnc (data : List Byte) (s : State) : Result := blockCommand 0x02 encEntry data s

/-- `DEC data` (R207): the run from entry 42. -/
def execDec (data : List Byte) (s : State) : Result := blockCommand 0x03 decEntry data s

end Sys2Proof.Machine
end

