-- ==== Sys2Proof/Machine/KeySchedule.lean ====
section
/-! DEFINITION. The key-schedule function units `rotword`, `subword`, `g` (rules R181 to R183) and the micro-operation
`KXW i` (rule R184). -/

namespace Sys2Proof.Machine

/-- `rotword((b0, b1, b2, b3)) = (b1, b2, b3, b0)` (R181). -/
def rotword (v : Word) : Word := #v[wordByte v 1, wordByte v 2, wordByte v 3, wordByte v 0]

/-- `subword`: each Byte through the forward table (R182). -/
def subword (v : Word) : Word := wordOf fun j => sbox (wordByte v j)

/-- `g(w, n)`: rotate, substitute, then the round constant into the first Byte (R183, conflict C2). -/
def gWord (v : Word) (n : Byte) : Word :=
  let t := subword (rotword v)
  #v[wordByte t 0 ^^^ rcon n, wordByte t 1, wordByte t 2, wordByte t 3]

/-- `temp` of the recurrence: `W[i-1]`, through `g` with constant index `i div 4` when `i mod 4 == 0` (R184). -/
def kxwTemp (i : Nat) (prev : Word) : Word :=
  if i % 4 = 0 then gWord prev (BitVec.ofNat 8 (i / 4)) else prev

/-- The word `KXW i` writes: for `i < 4` copied from DIN, else `W[i-4] ^ temp`; `none` where a word or buffer it reads
holds no value (R184). -/
def kxwWord (i : Nat) (s : State) : Option Word :=
  if i < Config.keyStride then s.lane.din.value?.map fun b => keyWord b i
  else
    match readW (i - 1) s, readW (i - 4) s with
    | some prev, some back => some (xorWord back (kxwTemp i prev))
    | _, _ => none

/-- `KXW i` (R184). `i > 43` is not an encoding (R87): BadMicroOp (R88). The completion after `KXW 43` is the
micro-step's (R204, `complete`). -/
def execKxw (i : BitVec 6) (s : State) : Result :=
  if i.toNat < Config.keyWords then
    withValue (kxwWord i.toNat s) fun v => .next (advance (writeW i.toNat v s))
  else .fault .badMicroOp

end Sys2Proof.Machine
end

