-- ==== Sys2Proof/Machine/Galois.lean ====
section
/-! DEFINITION. The Galois-field multiplier: `xtime` and `gfmul` (rules R110 to R113). -/

namespace Sys2Proof.Machine

/-- `xtime(a)`: the product of `a` and x. The Byte is shifted left by one, and the low polynomial 0x1B is exclusive-ored
in when the bit shifted out was set (R111). -/
def xtime (a : Byte) : Byte :=
  if a.getLsbD 7 then (a <<< 1) ^^^ 0x1B else a <<< 1

/-- One iteration of `gfmul` at bit `k` of `b`, on the accumulator and the current `a`: the conditional exclusive-or
first, the doubling second (R112, conflict C1). -/
def gfmulStep (b : Byte) (pa : Byte × Byte) (k : Nat) : Byte × Byte :=
  (if b.getLsbD k then pa.1 ^^^ pa.2 else pa.1, xtime pa.2)

/-- `gfmul(a, b)`: the product in GF(2^8), bit 0 of `b` first (R112). -/
def gfmul (a b : Byte) : Byte :=
  ((List.range 8).foldl (gfmulStep b) (0, a)).1

/-- `a` times x to the power `k`: the `xk(a, k)` of the combinational form (R113). -/
def xpow (a : Byte) : Nat → Byte
  | 0 => a
  | k + 1 => xtime (xpow a k)

end Sys2Proof.Machine
end

