-- ==== Sys2Proof/Machine/RoundTransforms.lean ====
section
/-! DEFINITION. The micro-operations on the State matrix and the function unit `mixcol` (rules R150 to R160). -/

namespace Sys2Proof.Machine

/-! ## What each operation does to a grid -/

/-- Substitute (R153). -/
def subGrid (g : Grid) : Grid := gridOf fun row col => sbox (cell g row col)

/-- Inverse-Substitute (R154). -/
def isubGrid (g : Grid) : Grid := gridOf fun row col => isbox (cell g row col)

/-- Shift-Rows: row `row` rotated left, toward lower column index, by `row` positions (R155). -/
def shrGrid (g : Grid) : Grid := gridOf fun row col => cell g row (col + row)

/-- Inverse-Shift-Rows: row `row` rotated right by `row` positions; `col - row` is modulo 4 (R156). -/
def ishrGrid (g : Grid) : Grid := gridOf fun row col => cell g row (col - row)

/-- A constant matrix, entry `M[i][j]` being `cell m i j` (R157). -/
abbrev Matrix4 := Grid

/-- The forward matrix (R158). -/
def mixM : Matrix4 :=
  #v[#v[0x02, 0x03, 0x01, 0x01], #v[0x01, 0x02, 0x03, 0x01], #v[0x01, 0x01, 0x02, 0x03], #v[0x03, 0x01, 0x01, 0x02]]

/-- The inverse matrix (R159). -/
def imixM : Matrix4 :=
  #v[#v[0x0E, 0x0B, 0x0D, 0x09], #v[0x09, 0x0E, 0x0B, 0x0D], #v[0x0D, 0x09, 0x0E, 0x0B], #v[0x0B, 0x0D, 0x09, 0x0E]]

/-- Entry `i` of the matrix-by-column product (R157). -/
def mixEntry (m : Matrix4) (v : Word) (i : Fin 4) : Byte :=
  gfmul (cell m i 0) (wordByte v 0) ^^^ gfmul (cell m i 1) (wordByte v 1) ^^^
    gfmul (cell m i 2) (wordByte v 2) ^^^ gfmul (cell m i 3) (wordByte v 3)

/-- `mixcol(M, v)` (R157). -/
def mixcol (m : Matrix4) (v : Word) : Word := wordOf fun i => mixEntry m v i

/-- Column `col` of a grid, row 0 first (R157). -/
def column (g : Grid) (col : Fin 4) : Word := wordOf fun row => cell g row col

/-- Every column replaced by its product with `m` (R158, R159). -/
def mixGridWith (m : Matrix4) (g : Grid) : Grid := gridOf fun row col => wordByte (mixcol m (column g col)) row

/-- Mix-Columns (R158). -/
def mixGrid (g : Grid) : Grid := mixGridWith mixM g

/-- Inverse-Mix-Columns (R159). -/
def imixGrid (g : Grid) : Grid := mixGridWith imixM g

/-- Add-Round-Key: `S[row][col] ^ W[4r + col][row]`, the round key given by its four words (R55, R160). -/
def arkGrid (k : Vector Word 4) (g : Grid) : Grid := gridOf fun row col => cell g row col ^^^ wordByte k[col] row

/-! ## The micro-operations -/

/-- The shape of a micro-operation that reads and writes the State: read `S`, write its image, advance (R150). -/
def transform (f : Grid → Grid) (s : State) : Result :=
  withValue s.lane.grid.value? fun g => .next (advance (writeGrid (f g) s))

/-- `LDST` (R151). -/
def execLdst (s : State) : Result :=
  withValue s.lane.din.value? fun b => .next (advance (writeGrid (gridOfBlock b) s))

/-- `STST` (R152). The completion that follows it is the micro-step's (R204, `complete`). -/
def execStst (s : State) : Result :=
  withValue s.lane.grid.value? fun g => .next (advance (writeDout (blockOfGrid g) s))

/-- `SUB` (R153). -/
def execSub (s : State) : Result := transform subGrid s

/-- `ISUB` (R154). -/
def execIsub (s : State) : Result := transform isubGrid s

/-- `SHR` (R155). -/
def execShr (s : State) : Result := transform shrGrid s

/-- `ISHR` (R156). -/
def execIshr (s : State) : Result := transform ishrGrid s

/-- `MIX` (R158). -/
def execMix (s : State) : Result := transform mixGrid s

/-- `IMIX` (R159). -/
def execImix (s : State) : Result := transform imixGrid s

/-- `ARK r` (R160). `r > 10` is not an encoding (R86): BadMicroOp (R88). -/
def execArk (r : BitVec 4) (s : State) : Result :=
  if r.toNat ≤ Config.rounds then
    withValue (readRoundKey r.toNat s) fun k => transform (arkGrid k) s
  else .fault .badMicroOp

end Sys2Proof.Machine
end

