-- ==== Sys2Proof/Machine/Dispatch.lean ====
section
/-! DEFINITION. One arm per constructor of Instr, each one call of its meaning. -/

namespace Sys2Proof.Machine

def exec (i : Instr) (s : State) : Host.Outcome State Fault Refusal :=
  match i with
  | .keyexp data => Sys2Proof.Machine.execKeyexp data s
  | .enc data => Sys2Proof.Machine.execEnc data s
  | .dec data => Sys2Proof.Machine.execDec data s
  | .ldst => Sys2Proof.Machine.execLdst s
  | .stst => Sys2Proof.Machine.execStst s
  | .sub => Sys2Proof.Machine.execSub s
  | .shr => Sys2Proof.Machine.execShr s
  | .mix => Sys2Proof.Machine.execMix s
  | .isub => Sys2Proof.Machine.execIsub s
  | .ishr => Sys2Proof.Machine.execIshr s
  | .imix => Sys2Proof.Machine.execImix s
  | .ark r => Sys2Proof.Machine.execArk r s
  | .kxw n => Sys2Proof.Machine.execKxw n s

end Sys2Proof.Machine
end

