-- ==== Sys2Proof/Machine/Sequencer.lean ====
section
/-! DEFINITION. The sequencer: the micro-program (rules R202, R203), the micro-step of a busy lane (rule R204), the end of a
run (rule R205), acceptance on an idle lane (rules R201, R274, R275), the turn of a lane, and the reset event. -/

namespace Sys2Proof.Machine

/-! ## The micro-program -/

/-- `UROM[0..41]`, the encrypt sequence (R203). -/
def uromEnc : List Byte :=
  [0x01, 0x40, 0x03, 0x04, 0x05, 0x41, 0x03, 0x04, 0x05, 0x42, 0x03, 0x04, 0x05, 0x43,
   0x03, 0x04, 0x05, 0x44, 0x03, 0x04, 0x05, 0x45, 0x03, 0x04, 0x05, 0x46, 0x03, 0x04,
   0x05, 0x47, 0x03, 0x04, 0x05, 0x48, 0x03, 0x04, 0x05, 0x49, 0x03, 0x04, 0x4a, 0x02]

/-- `UROM[42..83]`, the decrypt sequence (R203). -/
def uromDec : List Byte :=
  [0x01, 0x4a, 0x07, 0x06, 0x49, 0x08, 0x07, 0x06, 0x48, 0x08, 0x07, 0x06, 0x47, 0x08,
   0x07, 0x06, 0x46, 0x08, 0x07, 0x06, 0x45, 0x08, 0x07, 0x06, 0x44, 0x08, 0x07, 0x06,
   0x43, 0x08, 0x07, 0x06, 0x42, 0x08, 0x07, 0x06, 0x41, 0x08, 0x07, 0x06, 0x40, 0x02]

/-- `UROM[84..127]`, the key expansion (R203). -/
def uromKeyexp : List Byte :=
  [0x80, 0x81, 0x82, 0x83, 0x84, 0x85, 0x86, 0x87, 0x88, 0x89, 0x8a, 0x8b, 0x8c, 0x8d,
   0x8e, 0x8f, 0x90, 0x91, 0x92, 0x93, 0x94, 0x95, 0x96, 0x97, 0x98, 0x99, 0x9a, 0x9b,
   0x9c, 0x9d, 0x9e, 0x9f, 0xa0, 0xa1, 0xa2, 0xa3, 0xa4, 0xa5, 0xa6, 0xa7, 0xa8, 0xa9,
   0xaa, 0xab]

/-- The micro-program `UROM[0..127]`, a constant of the design (R32, R203). -/
def urom : List Byte := uromEnc ++ uromDec ++ uromKeyexp

/-- The instruction fetch: the word at `upc` (R65, R204). `urom` has an entry for every 7-bit index, so the default, a
reserved word, is never taken. -/
def fetch (upc : BitVec 7) : Byte := urom.getD upc.toNat 0x00

/-- The generator of the micro-program (R202): `[SUB, SHR, MIX, ARK r]` for a main round. -/
def encRound (r : Nat) : List Instr := [.sub, .shr, .mix, .ark (BitVec.ofNat 4 r)]

/-- The generator's `[ISHR, ISUB, ARK r, IMIX]` (R202). -/
def decRound (r : Nat) : List Instr := [.ishr, .isub, .ark (BitVec.ofNat 4 r), .imix]

/-- The generator of the encrypt sequence (R202). -/
def encProgram : List Instr :=
  [.ldst, .ark 0] ++ [1, 2, 3, 4, 5, 6, 7, 8, 9].flatMap encRound ++ [.sub, .shr, .ark 10, .stst]

/-- The generator of the decrypt sequence (R202). -/
def decProgram : List Instr :=
  [.ldst, .ark 10] ++ [9, 8, 7, 6, 5, 4, 3, 2, 1].flatMap decRound ++ [.ishr, .isub, .ark 0, .stst]

/-- The generator of the key expansion (R202). -/
def keyexpProgram : List Instr := (List.range 44).map fun i => .kxw (BitVec.ofNat 6 i)

/-! ## The micro-step -/

/-- What a micro-operation ends: nothing, a block transform, or a key expansion (R205). -/
inductive Ending where
  | none | block | schedule
  deriving DecidableEq, Repr

/-- `STST` ends a block transform, `KXW 43` a key expansion (R204, R205). -/
def ending : Instr → Ending
  | .keyexp _ => .none
  | .enc _ => .none
  | .dec _ => .none
  | .ldst => .none
  | .stst => .block
  | .sub => .none
  | .shr => .none
  | .mix => .none
  | .isub => .none
  | .ishr => .none
  | .imix => .none
  | .ark _ => .none
  | .kxw i => if i = 43 then .schedule else .none

/-- The end of a run, after its terminating micro-operation: `KEY_VALID <- 1` for a key expansion, the lane idle, and
the one response (R205, R213). -/
def complete (e : Ending) (s : State) : Result :=
  match e with
  | .none => .next s
  | .block => withValue s.lane.dout.value? fun b => .next (respond .ok b.toList (goIdle s))
  | .schedule => .next (respond .ok [] (goIdle (setKeyValid true s)))

/-- The rest of the micro-step once the micro-operation has been decoded: execute, then complete if it ends the run
(R204). -/
def microExec (i : Instr) (s : State) : Result :=
  match exec i s with
  | .next t => complete (ending i) t
  | .fault f => .fault f
  | .refused r => .refused r

/-- The micro-step of a busy lane: fetch, decode, execute, advance, complete (R204). A reserved word is BadMicroOp
(R88). -/
def microStep (s : State) : Result :=
  match decodeU (fetch s.lane.upc) with
  | .ok i => microExec i s
  | .error _ => .fault .badMicroOp

/-! ## Acceptance -/

/-- The step of an idle lane. Nothing presented: it waits (R252). A request that cannot be accepted yet is held and
nothing happens (R274, R275). An accepted one leaves the port, and is answered or started: a reserved command byte with
ERR_CMD (R89, R244), a command by its meaning. -/
def hostStep (s : State) : Result :=
  match s.lane.port with
  | [] => .next s
  | req :: _ =>
    if canAccept req.cmd s then
      match decodeH req.cmd req.data with
      | .ok i => exec i (takeRequest s)
      | .error _ => .next (raise .errCmd (takeRequest s))
    else .next s

/-! ## The turn -/

/-- The moving lane's step: a micro-step while it is busy, else the step of an idle lane (R201, R204). -/
def laneStep (s : State) : Result := if s.lane.busy then microStep s else hostStep s

/-- One step of the engine: what the schedule names, a reset event or the turn of a lane; where it names nothing, the
next lane in turn moves (R211, R270, R275). -/
def engineStep (s : State) : Result :=
  match s.schedule with
  | [] => laneStep (focusNext s)
  | .turn k :: rest => laneStep (focus k { s with schedule := rest })
  | .reset :: rest => .next (resetEngine { s with schedule := rest })

/-! ## Placing one instruction -/

/-- An element's Bytes where it holds a value, else zero Bytes. -/
def filled (c : Content Word) : Word := c.value?.getD (Vector.replicate 4 0)

/-- Put a lane where the micro-program runs `word` next: busy, `upc` at the first entry that holds it; and, where the
elements the earlier entries of a run write hold no value, zero Bytes in them (notes/assumptions/13.md). -/
def placeMicroOp (word : Byte) (s : State) : State :=
  { s with
    w := Vector.ofFn fun n : Fin 44 => .holds (filled s.w[n])
    lane := { s.lane with
      grid := .holds (s.lane.grid.value?.getD (gridOf fun _ _ => 0))
      din := .holds (s.lane.din.value?.getD (Vector.replicate 16 0))
      busy := true
      upc := BitVec.ofNat 7 (urom.findIdx (· == word)) } }

/-- Put every lane idle, with `req` the request presented to the moving one (notes/assumptions/13.md). -/
def placeRequest (req : Request) (s : State) : State :=
  { s with
    lower := s.lower.map fun l => { l with busy := false, upc := 0 }
    lane := { s.lane with busy := false, upc := 0, port := req :: s.lane.port }
    upper := s.upper.map fun l => { l with busy := false, upc := 0 } }

/-- Place the operation a table word stands for where the next step runs it: a word only the micro-program's code space
has, in the moving lane's micro-program counter; any other as the request presented to that lane; and the moving lane's
turn next (notes/assumptions/13.md). -/
def placeTableWord (nbits w : Nat) (s : State) : State :=
  let turned := { s with schedule := .turn s.laneNo :: s.schedule }
  match decodeH (tableByte nbits w) (tableData nbits w), decodeU (tableByte nbits w) with
  | .error _, .ok _ => placeMicroOp (tableByte nbits w) turned
  | _, _ => placeRequest ⟨tableByte nbits w, tableData nbits w⟩ turned

end Sys2Proof.Machine
end

