-- ==== Sys2Proof/Machine/Step.lean ====
section
/-! DEFINITION. The machine's one step, and the placing of one instruction for it. -/

namespace Sys2Proof.Machine

/-- One step of the engine (R204, R211, R270); `engineStep` says what it does. -/
def step (s : State) : Host.Outcome State Fault Refusal := engineStep s

/-- `s` with the operation that the table word `w` stands for placed where `step` runs it next
(notes/assumptions/13.md). -/
def State.withFetchWord (s : State) (nbits w : Nat) : State := placeTableWord nbits w s

end Sys2Proof.Machine
end

