-- ==== Sys2Proof/Machine/Transaction.lean ====
section
/-! DEFINITION. The whole-transaction view: `expand` (rule R185), the round sequences of `ENC` and `DEC` as functions (rules
R206, R207), and `transact` (rule R212). No step uses them; statements compare the steps with them. -/

namespace Sys2Proof.Machine

/-- Word `i` of the expansion of a key, from the words before it in `ws` (R185). -/
def nextWord (key : Block) (ws : KeyWords) (i : Nat) : Word :=
  if i < Config.keyStride then keyWord key i
  else xorWord (ws.toList.getD (i - 4) (Vector.replicate 4 0)) (kxwTemp i (ws.toList.getD (i - 1) (Vector.replicate 4 0)))

/-- The first `n` words of the expansion, in a list of 44 of which only those are meant (R185). -/
def expandTo (key : Block) : Nat → KeyWords
  | 0 => Vector.replicate 44 (Vector.replicate 4 0)
  | n + 1 => (expandTo key n).setIfInBounds n (nextWord key (expandTo key n) n)

/-- `expand(key)`: the 44 words of the schedule (R185). -/
def expand (key : Block) : KeyWords := expandTo key 44

/-- Round key `r` of a schedule: words `4r .. 4r+3` (R25). -/
def roundKey (ks : KeyWords) (r : Nat) : Vector Word 4 :=
  Vector.ofFn fun c => ks.toList.getD (4 * r + c.val) (Vector.replicate 4 0)

/-- `ARK r` under a schedule (R160). -/
def addKey (ks : KeyWords) (r : Nat) (g : Grid) : Grid := arkGrid (roundKey ks r) g

/-- A main round of `ENC`: `SUB; SHR; MIX; ARK r` (R206). -/
def encRoundGrid (ks : KeyWords) (g : Grid) (r : Nat) : Grid := addKey ks r (mixGrid (shrGrid (subGrid g)))

/-- A main round of `DEC`: `ISHR; ISUB; ARK r; IMIX` (R207). -/
def decRoundGrid (ks : KeyWords) (g : Grid) (r : Nat) : Grid := imixGrid (addKey ks r (isubGrid (ishrGrid g)))

/-- `cipher(W, data)`: the composition of R206. -/
def cipher (ks : KeyWords) (b : Block) : Block :=
  blockOfGrid (addKey ks 10 (shrGrid (subGrid
    ([1, 2, 3, 4, 5, 6, 7, 8, 9].foldl (encRoundGrid ks) (addKey ks 0 (gridOfBlock b))))))

/-- `invcipher(W, data)`: the composition of R207. -/
def invCipher (ks : KeyWords) (b : Block) : Block :=
  blockOfGrid (addKey ks 0 (isubGrid (ishrGrid
    ([9, 8, 7, 6, 5, 4, 3, 2, 1].foldl (decRoundGrid ks) (addKey ks 10 (gridOfBlock b))))))

/-- The schedule, where all 44 words hold a value. -/
def scheduleOf? (s : State) : Option KeyWords :=
  if h : ∀ n : Fin 44, (s.w[n]).value?.isSome = true then some (Vector.ofFn fun n => (s.w[n]).value?.get (h n)) else none

/-- A completed block transform: DIN and DOUT written, `S` without a value, the final State its bit pattern (R212,
R23). -/
def finishBlock (din dout : Block) (s : State) : State :=
  { s with lane := { s.lane with din := .holds din, dout := .holds dout, grid := .noValue (gridOfBlock dout) } }

/-- A completed key expansion (R212). -/
def finishKeyexp (key : Block) (s : State) : State :=
  { s with w := (Vector.ofFn fun n : Fin 44 => .holds (expand key)[n]), keyValid := true,
           lane := { s.lane with din := .holds key, grid := s.lane.grid.discard } }

/-- `transact(st, (cmd, len, data))`: one transaction of the moving lane as one function to the state after it and the
response (R212). `none` where `KEY_VALID` is set over a schedule that holds no value, which no run reaches (R272). -/
def transact (s : State) (req : Request) : Option (State × Response) :=
  match decodeH req.cmd req.data with
  | .error _ => some (s, ⟨.errCmd, []⟩)
  | .ok i =>
    match blockOfBytes? req.data with
    | none => some (s, ⟨if req.cmd = 0x01 then .errKeyLen else .errBlkLen, []⟩)
    | some b =>
      if encode i = 0x01 then some (finishKeyexp b s, ⟨.ok, []⟩)
      else if s.keyValid = false then some (s, ⟨.errNoSched, []⟩)
      else (scheduleOf? s).map fun ks =>
        let out := if encode i = 0x02 then cipher ks b else invCipher ks b
        (finishBlock b out s, ⟨.ok, out.toList⟩)

/-- The number of steps of an accepted transaction: one for its acceptance, and its fixed number of micro-steps where it
runs: 42, 42 and 44, whatever the data (R204). -/
def transactionSteps (s : State) (req : Request) : Nat :=
  match decodeH req.cmd req.data with
  | .error _ => 1
  | .ok i =>
    if req.data.length ≠ Config.blockBytes then 1
    else if encode i = 0x01 then 45
    else if s.keyValid then 43 else 1

/-- `n` steps, stopping at the first fault or refusal. -/
def run : Nat → State → Result
  | 0, s => .next s
  | n + 1, s =>
    match step s with
    | .next t => run n t
    | .fault f => .fault f
    | .refused r => .refused r

end Sys2Proof.Machine
end

