-- ==== Sys2Proof/Safety.lean ====
section
/-! DEFINITION. What holds of every state a run reaches (rules R22, R26, R28, R29, R205, R272, R275), and what a safe step
is. -/

namespace Sys2Proof.Machine

/-- A step is safe when it gives a next state: no fault, no refusal (R248, R249). -/
def SafeStep (s : State) : Prop := ∃ t, step s = .next t

/-- `W` holds the whole expansion of `key` (R26, R185). -/
def HoldsSchedule (key : Block) (w : Vector (Content Word) 44) : Prop :=
  ∀ n : Fin 44, w[n] = .holds (expand key)[n]

/-- An idle lane is at entry 0 and its State holds no value (R29, R205). -/
def Lane.IdleOk (l : Lane) : Prop := l.busy = false → l.upc = 0 ∧ l.grid.value? = none

/-- A lane in the encrypt or decrypt part of the micro-program: the schedule is valid, DIN holds a value, and the State
holds one exactly when `LDST`, at 0 or 42, has executed (R22, R26, R27, R203). -/
def Lane.BlockOk (keyValid : Bool) (l : Lane) : Prop :=
  l.busy = true → l.upc.toNat < 84 →
    keyValid = true ∧ l.din.value?.isSome = true ∧ (l.grid.value?.isSome = true ↔ l.upc ≠ 0 ∧ l.upc ≠ 42)

/-- A lane in the key expansion: KEY_VALID is 0, the State holds no value, DIN holds the key, and the words before the
one `upc` computes are those of the key's expansion (R26, R184, R208). -/
def Lane.KeyexpOk (keyValid : Bool) (w : Vector (Content Word) 44) (l : Lane) : Prop :=
  l.busy = true → 84 ≤ l.upc.toNat →
    keyValid = false ∧ l.grid.value? = none ∧
      ∃ key, l.din = .holds key ∧ ∀ n : Fin 44, n.val < l.upc.toNat - 84 → w[n] = .holds (expand key)[n]

/-- The invariant of the engine. -/
structure Inv (s : State) : Prop where
  /-- Idle lanes (R29, R205). -/
  idle : ∀ l ∈ s.lanes, l.IdleOk
  /-- Lanes in a block transform (R22, R26, R27). -/
  block : ∀ l ∈ s.lanes, l.BlockOk s.keyValid
  /-- Lanes in a key expansion (R184, R208). -/
  keyexp : ∀ l ∈ s.lanes, l.KeyexpOk s.keyValid s.w
  /-- A running `KEYEXP` is exclusive: its lane is the only busy one (R275). -/
  exclusive : (∃ l ∈ s.lanes, l.runsKeyexp = true) → (s.lanes.filter fun l => l.busy).length = 1
  /-- KEY_VALID says that `W` holds the expansion of some key (R26). -/
  schedule : s.keyValid = true → ∃ key, HoldsSchedule key s.w

/-! ## R272's own invariant: what is read has been written -/

/-- Every word of `W` holds a value. -/
def AllWordsHeld (w : Vector (Content Word) 44) : Prop := ∀ n : Fin 44, w[n].value?.isSome = true

/-- What the rest of a lane's run reads holds a value. In a block transform: `W`, DIN, and, after its `LDST` (at 0 or 42),
the State. In a key expansion: DIN, and the words before the one `upc` computes (R272, R203). -/
structure Lane.ReadsHeld (w : Vector (Content Word) 44) (l : Lane) : Prop where
  din   : l.busy = true → l.din.value?.isSome = true
  grid  : l.busy = true → l.upc.toNat < 84 → l.upc ≠ 0 → l.upc ≠ 42 → l.grid.value?.isSome = true
  words : l.busy = true → l.upc.toNat < 84 → AllWordsHeld w
  built : l.busy = true → ∀ n : Fin 44, n.val < l.upc.toNat - 84 → w[n].value?.isSome = true

/-- The invariant by which NoValueRead is unreachable: KEY_VALID implies that all 44 words were written, and every lane
has what the rest of its run reads (R272). -/
structure ValuesHeld (s : State) : Prop where
  valid : s.keyValid = true → AllWordsHeld s.w
  lanes : ∀ l ∈ s.lanes, l.ReadsHeld s.w

end Sys2Proof.Machine
end

