-- ==== Sys2Proof/Certificates/Slice0/Obligations.lean ====
section
/-! DEFINITION. The statements for the provers, each a rule of spec/ or derived from rules. -/

open Sys2Proof Sys2Proof.Machine

/-! ## Encodings -/

/-- R94: decoding an encoded well-formed operation in its code space gives it back, operands and data included; and
whatever decodes is well formed, of that code space, and encodes to the byte it was read from. -/
def Obligations.DecodeInvertsEncode : Prop :=
  (∀ i : Instr, i.wellFormed = true → decode i.format (encode i) i.data = .ok i) ∧
  (∀ (f : Format) (word : Byte) (data : List Byte) (i : Instr), decode f word data = .ok i →
    i.wellFormed = true ∧ i.format = f ∧ encode i = word ∧ (f = .H → i.data = data))

/-- R82: 0x01 selects KEYEXP, 0x02 ENC, 0x03 DEC, by a full 8-bit compare: no other byte is a command. -/
def Obligations.HostCommandCodes : Prop :=
  ∀ (cmd : Byte) (data : List Byte) (i : Instr), decodeH cmd data = .ok i ↔
    (cmd = 0x01 ∧ i = .keyexp data) ∨ (cmd = 0x02 ∧ i = .enc data) ∨ (cmd = 0x03 ∧ i = .dec data)

/-- R86: `ARK r` is 0x40 | r for r in 0..10, match 0x40 under mask 0xF0, r the low four bits, unscaled; 0x4B..0x4F and
0x50..0x7F are reserved. -/
def Obligations.ArkEncoding : Prop :=
  (∀ r : BitVec 4, r.toNat ≤ 10 → encode (.ark r) = 0x40 ||| r.setWidth 8) ∧
  (∀ (word : Byte) (r : BitVec 4), decodeU word = .ok (.ark r) ↔
    word &&& 0xF0 = 0x40 ∧ r = word.extractLsb' 0 4 ∧ r.toNat ≤ 10) ∧
  (∀ word : Byte, 0x4B ≤ word → word ≤ 0x7F → decodeU word = .error (.reservedMicroOp word))

/-- R87: `KXW i` is 0x80 | i for i in 0..43, match 0x80 under mask 0xC0, i the low six bits; 0xAC..0xBF are reserved. -/
def Obligations.KxwEncoding : Prop :=
  (∀ i : BitVec 6, i.toNat ≤ 43 → encode (.kxw i) = 0x80 ||| i.setWidth 8) ∧
  (∀ (word : Byte) (i : BitVec 6), decodeU word = .ok (.kxw i) ↔
    word &&& 0xC0 = 0x80 ∧ i = word.extractLsb' 0 6 ∧ i.toNat ≤ 43) ∧
  (∀ word : Byte, 0xAC ≤ word → word ≤ 0xBF → decodeU word = .error (.reservedMicroOp word))

/-- R88, R89: the decoders refuse exactly the reserved bytes, each by name. -/
def Obligations.ReservedBytesRefused : Prop :=
  (∀ word : Byte, decodeU word = .error (.reservedMicroOp word) ↔
    word = 0x00 ∨ (0x09 ≤ word ∧ word ≤ 0x3F) ∨ (0x4B ≤ word ∧ word ≤ 0x7F) ∨ 0xAC ≤ word) ∧
  (∀ (cmd : Byte) (data : List Byte), decodeH cmd data = .error (.reservedCommand cmd) ↔ cmd = 0x00 ∨ 0x04 ≤ cmd)

/-- R82, R85 to R87: words written out from the encodings decode to the operations they stand for. -/
def Obligations.WrittenOutWordsDecode : Prop :=
  decodeH 0b00000001 [7] = .ok (.keyexp [7]) ∧ decodeH 0b00000011 [] = .ok (.dec []) ∧
  decodeU 0b00000001 = .ok .ldst ∧ decodeU 0b00000010 = .ok .stst ∧ decodeU 0b00000101 = .ok .mix ∧
  decodeU 0b00000110 = .ok .isub ∧ decodeU 0b01001010 = .ok (.ark 10) ∧ decodeU 0b10101011 = .ok (.kxw 43)

/-- R202, R203: the table of the micro-program is what the generator gives, 42 entries for ENC, 42 for DEC, 44 for
KEYEXP. -/
def Obligations.MicroProgramIsGenerated : Prop :=
  urom = (encProgram ++ decProgram ++ keyexpProgram).map encode ∧
  encProgram.length = 42 ∧ decProgram.length = 42 ∧ keyexpProgram.length = 44 ∧
  urom.length = 128

/-! ## Function units -/

/-- R111: `xtime` bit by bit, its corner values and examples, and that it is a bijection. -/
def Obligations.XtimeBitByBit : Prop :=
  (∀ a : Byte,
    (xtime a).getLsbD 0 = a.getLsbD 7 ∧ (xtime a).getLsbD 1 = (a.getLsbD 0 ^^ a.getLsbD 7) ∧
    (xtime a).getLsbD 2 = a.getLsbD 1 ∧ (xtime a).getLsbD 3 = (a.getLsbD 2 ^^ a.getLsbD 7) ∧
    (xtime a).getLsbD 4 = (a.getLsbD 3 ^^ a.getLsbD 7) ∧ (xtime a).getLsbD 5 = a.getLsbD 4 ∧
    (xtime a).getLsbD 6 = a.getLsbD 5 ∧ (xtime a).getLsbD 7 = a.getLsbD 6) ∧
  xtime 0x00 = 0x00 ∧ xtime 0x80 = 0x1B ∧ xtime 0x7F = 0xFE ∧ xtime 0xFF = 0xE5 ∧
  xtime 0x57 = 0xAE ∧ xtime 0xAE = 0x47 ∧ xtime 0x47 = 0x8E ∧ xtime 0x8E = 0x07 ∧
  Function.Bijective xtime

/-- R113: the combinational form of `gfmul`, and x^8 to x^14 reduced. -/
def Obligations.GfmulCombinational : Prop :=
  (∀ a b : Byte, gfmul a b =
    ((List.range 8).map fun k => if b.getLsbD k then xpow a k else 0).foldl (· ^^^ ·) 0) ∧
  xpow 0x01 8 = 0x1B ∧ xpow 0x01 9 = 0x36 ∧ xpow 0x01 10 = 0x6C ∧ xpow 0x01 11 = 0xD8 ∧
  xpow 0x01 12 = 0xAB ∧ xpow 0x01 13 = 0x4D ∧ xpow 0x01 14 = 0x9A

/-- R114: the laws of the product: a commutative, associative, distributive multiplication with one and zero, without
zero divisors, in which every non-zero Byte has exactly one inverse; and x has order 51. -/
def Obligations.GfmulFieldLaws : Prop :=
  (∀ a b : Byte, gfmul a b = gfmul b a) ∧
  (∀ a b c : Byte, gfmul a (gfmul b c) = gfmul (gfmul a b) c) ∧
  (∀ a b c : Byte, gfmul a (b ^^^ c) = gfmul a b ^^^ gfmul a c) ∧
  (∀ a : Byte, gfmul a 0x01 = a) ∧ (∀ a : Byte, gfmul a 0x00 = 0x00) ∧
  (∀ a b : Byte, gfmul a b = 0x00 → a = 0x00 ∨ b = 0x00) ∧
  (∀ a : Byte, a ≠ 0x00 → ∃ b, gfmul a b = 0x01 ∧ ∀ c, gfmul a c = 0x01 → c = b) ∧
  (∀ a : Byte, xpow a 51 = a) ∧ (∀ n, 0 < n → n < 51 → xpow 0x01 n ≠ 0x01)

/-- R115: the seven constant multipliers of the two matrices as compositions of `xtime` and exclusive-or. -/
def Obligations.ConstantMultipliers : Prop :=
  ∀ v : Byte,
    gfmul 0x01 v = v ∧ gfmul 0x02 v = xtime v ∧ gfmul 0x03 v = xtime v ^^^ v ∧
    gfmul 0x09 v = xtime (xtime (xtime v)) ^^^ v ∧
    gfmul 0x0B v = xtime (xtime (xtime v)) ^^^ xtime v ^^^ v ∧
    gfmul 0x0D v = xtime (xtime (xtime v)) ^^^ xtime (xtime v) ^^^ v ∧
    gfmul 0x0E v = xtime (xtime (xtime v)) ^^^ xtime (xtime v) ^^^ xtime v

/-- R133: the two substitution tables are mutual inverses, so permutations; SBOX has no fixed point and no opposite
fixed point. -/
def Obligations.SubstitutionTablesInverse : Prop :=
  (∀ a : Byte, isbox (sbox a) = a) ∧ (∀ a : Byte, sbox (isbox a) = a) ∧
  Function.Bijective sbox ∧ Function.Bijective isbox ∧
  (∀ a : Byte, sbox a ≠ a ∧ sbox a ≠ a ^^^ 0xFF)

/-- R131: every entry of SBOX is the affine map of the index's inverse in the field, 0 standing for the inverse of 0. -/
def Obligations.SboxGeneratingRule : Prop :=
  sbox 0x00 = sboxAffine 0x00 ∧ ∀ a y : Byte, gfmul a y = 0x01 → sbox a = sboxAffine y

/-- R135: the ten round constants the engine reads are the successive powers of x. Nothing is said of the others. -/
def Obligations.RoundConstantsArePowers : Prop :=
  ∀ n : Nat, 1 ≤ n → n ≤ 10 → rcon (BitVec.ofNat 8 n) = xpow 0x01 (n - 1)

/-- R157: `mixcol` is linear, for every matrix. -/
def Obligations.MixcolLinear : Prop :=
  ∀ (m : Matrix4) (u v : Word), mixcol m (xorWord u v) = xorWord (mixcol m u) (mixcol m v)

/-- R162: the products of the two matrices, both ways, are the identity, and each matrix is circulant: row `i` is row 0
rotated right by `i` positions. -/
def Obligations.MatricesInverse : Prop :=
  (∀ i j : Fin 4, wordByte (mixcol imixM (column mixM j)) i = if i = j then 0x01 else 0x00) ∧
  (∀ i j : Fin 4, wordByte (mixcol mixM (column imixM j)) i = if i = j then 0x01 else 0x00) ∧
  (∀ i j : Fin 4, cell mixM i j = cell mixM 0 (j - i) ∧ cell imixM i j = cell imixM 0 (j - i))

/-- R161: (SUB, ISUB), (SHR, ISHR), (MIX, IMIX) are pairs of mutually inverse permutations of the States, and ARK is its
own inverse for a fixed round key. -/
def Obligations.TransformsInvert : Prop :=
  ∀ g : Grid,
    isubGrid (subGrid g) = g ∧ subGrid (isubGrid g) = g ∧
    ishrGrid (shrGrid g) = g ∧ shrGrid (ishrGrid g) = g ∧
    imixGrid (mixGrid g) = g ∧ mixGrid (imixGrid g) = g ∧
    ∀ k : Vector Word 4, arkGrid k (arkGrid k g) = g

/-- R163: SUB commutes with SHR, and ISUB with ISHR. -/
def Obligations.SubstituteCommutesWithShift : Prop :=
  ∀ g : Grid, shrGrid (subGrid g) = subGrid (shrGrid g) ∧ ishrGrid (isubGrid g) = isubGrid (ishrGrid g)

/-! ## Micro-operations: when each completes, and with what -/

/-- R151: LDST with DIN holding a block gives `S[row][col] = DIN[4*col + row]`, `upc` advanced, nothing else changed. -/
def Obligations.LdstLoadsColumnMajor : Prop :=
  encode .ldst = 0x01 ∧ ∀ (s : State) (b : Block), s.lane.din = .holds b →
    ∃ g : Grid, (∀ row col : Fin 4, cell g row col = b[4 * col.val + row.val]'(by omega)) ∧
      exec .ldst s = .next { s with lane := { s.lane with grid := .holds g, upc := s.lane.upc + 1 } }

/-- R152: STST with S holding a value gives `DOUT[4*col + row] = S[row][col]`, `upc` advanced, S and all else unchanged;
and what LDST loaded, STST gives back. -/
def Obligations.StstExtractsColumnMajor : Prop :=
  encode .stst = 0x02 ∧ (∀ (s : State) (g : Grid), s.lane.grid = .holds g →
    ∃ b : Block, (∀ row col : Fin 4, b[4 * col.val + row.val]'(by omega) = cell g row col) ∧
      exec .stst s = .next { s with lane := { s.lane with dout := .holds b, upc := s.lane.upc + 1 } }) ∧
  ∀ b : Block, blockOfGrid (gridOfBlock b) = b

/-- R153, R154: SUB and ISUB with S holding a value replace every Byte of S by its table entry; `upc` advances, nothing
else changes. -/
def Obligations.SubstituteSteps : Prop :=
  encode .sub = 0x03 ∧ encode .isub = 0x06 ∧ ∀ (s : State) (g : Grid), s.lane.grid = .holds g →
    (∃ h : Grid, (∀ row col : Fin 4, cell h row col = sbox (cell g row col)) ∧
      exec .sub s = .next { s with lane := { s.lane with grid := .holds h, upc := s.lane.upc + 1 } }) ∧
    (∃ h : Grid, (∀ row col : Fin 4, cell h row col = isbox (cell g row col)) ∧
      exec .isub s = .next { s with lane := { s.lane with grid := .holds h, upc := s.lane.upc + 1 } })

/-- R155, R156: SHR moves the Byte of row `row`, column `col` to column `(col - row) mod 4`, ISHR to column
`(col + row) mod 4`; `upc` advances, nothing else changes. -/
def Obligations.ShiftRowsSteps : Prop :=
  encode .shr = 0x04 ∧ encode .ishr = 0x07 ∧ ∀ (s : State) (g : Grid), s.lane.grid = .holds g →
    (∃ h : Grid, (∀ row col : Fin 4, cell h row ⟨(col.val + 4 - row.val) % 4, by omega⟩ = cell g row col) ∧
      exec .shr s = .next { s with lane := { s.lane with grid := .holds h, upc := s.lane.upc + 1 } }) ∧
    (∃ h : Grid, (∀ row col : Fin 4, cell h row ⟨(col.val + row.val) % 4, by omega⟩ = cell g row col) ∧
      exec .ishr s = .next { s with lane := { s.lane with grid := .holds h, upc := s.lane.upc + 1 } })

/-- R158: MIX written out per column, `2*a0 ^ 3*a1 ^ a2 ^ a3` and its rotations; `upc` advances, nothing else changes. -/
def Obligations.MixColumnsStep : Prop :=
  encode .mix = 0x05 ∧ ∀ (s : State) (g : Grid), s.lane.grid = .holds g →
    ∃ h : Grid, (∀ col : Fin 4,
        cell h 0 col = gfmul 2 (cell g 0 col) ^^^ gfmul 3 (cell g 1 col) ^^^ cell g 2 col ^^^ cell g 3 col ∧
        cell h 1 col = cell g 0 col ^^^ gfmul 2 (cell g 1 col) ^^^ gfmul 3 (cell g 2 col) ^^^ cell g 3 col ∧
        cell h 2 col = cell g 0 col ^^^ cell g 1 col ^^^ gfmul 2 (cell g 2 col) ^^^ gfmul 3 (cell g 3 col) ∧
        cell h 3 col = gfmul 3 (cell g 0 col) ^^^ cell g 1 col ^^^ cell g 2 col ^^^ gfmul 2 (cell g 3 col)) ∧
      exec .mix s = .next { s with lane := { s.lane with grid := .holds h, upc := s.lane.upc + 1 } }

/-- R159: IMIX written out per column with 14, 11, 13, 9 and their rotations; `upc` advances, nothing else changes. -/
def Obligations.InverseMixColumnsStep : Prop :=
  encode .imix = 0x08 ∧ ∀ (s : State) (g : Grid), s.lane.grid = .holds g →
    ∃ h : Grid, (∀ col : Fin 4,
        cell h 0 col = gfmul 14 (cell g 0 col) ^^^ gfmul 11 (cell g 1 col) ^^^ gfmul 13 (cell g 2 col) ^^^ gfmul 9 (cell g 3 col) ∧
        cell h 1 col = gfmul 9 (cell g 0 col) ^^^ gfmul 14 (cell g 1 col) ^^^ gfmul 11 (cell g 2 col) ^^^ gfmul 13 (cell g 3 col) ∧
        cell h 2 col = gfmul 13 (cell g 0 col) ^^^ gfmul 9 (cell g 1 col) ^^^ gfmul 14 (cell g 2 col) ^^^ gfmul 11 (cell g 3 col) ∧
        cell h 3 col = gfmul 11 (cell g 0 col) ^^^ gfmul 13 (cell g 1 col) ^^^ gfmul 9 (cell g 2 col) ^^^ gfmul 14 (cell g 3 col)) ∧
      exec .imix s = .next { s with lane := { s.lane with grid := .holds h, upc := s.lane.upc + 1 } }

/-- R160: ARK r, for r in 0..10, with S and the words 4r..4r+3 holding values, exclusive-ors `W[4r + col][row]`, the Byte
`RKB[16r + 4*col + row]`, into `S[row][col]`; `upc` advances, nothing else changes. -/
def Obligations.ArkAddsRoundKey : Prop :=
  ∀ (s : State) (r : BitVec 4) (g : Grid) (k : Fin 4 → Word), r.toNat ≤ 10 → s.lane.grid = .holds g →
    (∀ col : Fin 4, s.w[4 * r.toNat + col.val]? = some (.holds (k col))) →
    encode (.ark r) = 0x40 ||| r.setWidth 8 ∧
    ∃ h : Grid, (∀ row col : Fin 4, cell h row col = cell g row col ^^^ wordByte (k col) row ∧
        readByte .rk (16 * r.toNat + 4 * col.val + row.val) s = some (wordByte (k col) row)) ∧
      exec (.ark r) s = .next { s with lane := { s.lane with grid := .holds h, upc := s.lane.upc + 1 } }

/-- R184: KXW i. For i < 4, W[i] takes key Bytes DIN[4i..4i+3]. For 4 <= i <= 43, W[i] = W[i-4] ^ temp, temp being W[i-1],
or, where i mod 4 = 0, the word whose Bytes are sbox of W[i-1] rotated left by one Byte, with RCON[i div 4] in the
first. `upc` advances, nothing else changes. -/
def Obligations.KxwComputesWord : Prop :=
  (∀ i : BitVec 6, i.toNat ≤ 43 → encode (.kxw i) = 0x80 ||| i.setWidth 8) ∧
  (∀ (s : State) (i : BitVec 6) (b : Block), i.toNat < 4 → s.lane.din = .holds b →
    ∃ v : Word, (∀ j : Fin 4, b[4 * i.toNat + j.val]? = some (wordByte v j)) ∧
      exec (.kxw i) s = .next { s with
        w := s.w.setIfInBounds i.toNat (.holds v), lane := { s.lane with upc := s.lane.upc + 1 } }) ∧
  (∀ (s : State) (i : BitVec 6) (prev back : Word), 4 ≤ i.toNat → i.toNat ≤ 43 →
    s.w[i.toNat - 1]? = some (.holds prev) → s.w[i.toNat - 4]? = some (.holds back) →
    ∃ v : Word,
      (i.toNat % 4 ≠ 0 → ∀ j : Fin 4, wordByte v j = wordByte back j ^^^ wordByte prev j) ∧
      (i.toNat % 4 = 0 →
        wordByte v 0 = wordByte back 0 ^^^ (sbox (wordByte prev 1) ^^^ rcon (BitVec.ofNat 8 (i.toNat / 4))) ∧
        wordByte v 1 = wordByte back 1 ^^^ sbox (wordByte prev 2) ∧
        wordByte v 2 = wordByte back 2 ^^^ sbox (wordByte prev 3) ∧
        wordByte v 3 = wordByte back 3 ^^^ sbox (wordByte prev 0)) ∧
      exec (.kxw i) s = .next { s with
        w := s.w.setIfInBounds i.toNat (.holds v), lane := { s.lane with upc := s.lane.upc + 1 } })

/-- R181, R182, R183: `rotword`, `subword` and `g` Byte by Byte; `subword` and `rotword` commute; the first Byte `g`
changes is the first after rotation. -/
def Obligations.KeyScheduleUnits : Prop :=
  (∀ v : Word, wordByte (rotword v) 0 = wordByte v 1 ∧ wordByte (rotword v) 1 = wordByte v 2 ∧
    wordByte (rotword v) 2 = wordByte v 3 ∧ wordByte (rotword v) 3 = wordByte v 0) ∧
  (∀ (v : Word) (j : Fin 4), wordByte (subword v) j = sbox (wordByte v j)) ∧
  (∀ v : Word, subword (rotword v) = rotword (subword v)) ∧
  (∀ (v : Word) (n : Byte), wordByte (gWord v n) 0 = sbox (wordByte v 1) ^^^ rcon n ∧
    wordByte (gWord v n) 1 = sbox (wordByte v 2) ∧ wordByte (gWord v n) 2 = sbox (wordByte v 3) ∧
    wordByte (gWord v n) 3 = sbox (wordByte v 0))

/-- R249, R272: a micro-operation that reads an element holding no value stops with NoValueRead, never with a value. -/
def Obligations.NoValueReadFaults : Prop :=
  ∀ s : State,
    (s.lane.din.value? = none → exec .ldst s = .fault .noValueRead) ∧
    (s.lane.grid.value? = none →
      exec .stst s = .fault .noValueRead ∧ exec .sub s = .fault .noValueRead ∧ exec .isub s = .fault .noValueRead ∧
      exec .shr s = .fault .noValueRead ∧ exec .ishr s = .fault .noValueRead ∧ exec .mix s = .fault .noValueRead ∧
      exec .imix s = .fault .noValueRead ∧ ∀ r : BitVec 4, r.toNat ≤ 10 → exec (.ark r) s = .fault .noValueRead) ∧
    (∀ (r : BitVec 4) (col : Fin 4), r.toNat ≤ 10 → s.w[4 * r.toNat + col.val]?.map Content.value? = some none →
      exec (.ark r) s = .fault .noValueRead) ∧
    (s.lane.din.value? = none → ∀ i : BitVec 6, i.toNat < 4 → exec (.kxw i) s = .fault .noValueRead) ∧
    (∀ i : BitVec 6, 4 ≤ i.toNat → i.toNat ≤ 43 →
      s.w[i.toNat - 1]?.map Content.value? = some none ∨ s.w[i.toNat - 4]?.map Content.value? = some none →
      exec (.kxw i) s = .fault .noValueRead)

/-- R88, and the model's reading of it (notes/assumptions/21.md): an operand outside the range its encoding has stops
with BadMicroOp; it is never a no-operation. -/
def Obligations.OutOfRangeOperandsFault : Prop :=
  ∀ s : State,
    (∀ r : BitVec 4, 10 < r.toNat → exec (.ark r) s = .fault .badMicroOp) ∧
    (∀ i : BitVec 6, 43 < i.toNat → exec (.kxw i) s = .fault .badMicroOp)

/-! ## Frames -/

/-- R150: LDST, SUB, ISUB, SHR, ISHR, MIX, IMIX and ARK write the moving lane's S and advance its `upc`; every other
element, every other lane and every Byte of every index space is unchanged. -/
def Obligations.StateTransformFrame : Prop :=
  ∀ (i : Instr) (s t : State),
    (i = .ldst ∨ i = .sub ∨ i = .isub ∨ i = .shr ∨ i = .ishr ∨ i = .mix ∨ i = .imix ∨ ∃ r, i = .ark r) →
    exec i s = .next t →
    t.w = s.w ∧ t.keyValid = s.keyValid ∧ t.lower = s.lower ∧ t.upper = s.upper ∧ t.schedule = s.schedule ∧
    t.lane.din = s.lane.din ∧ t.lane.dout = s.lane.dout ∧ t.lane.busy = s.lane.busy ∧
    t.lane.upc = s.lane.upc + 1 ∧ t.lane.port = s.lane.port ∧ t.lane.resp = s.lane.resp ∧
    ∀ (sp : Space) (a : Nat), readByte sp a t = readByte sp a s

/-- R150, R152: STST writes DOUT and advances `upc`; every other element, every other lane and every Byte outside DOUT
is unchanged. -/
def Obligations.StstFrame : Prop :=
  ∀ s t : State, exec .stst s = .next t →
    t.w = s.w ∧ t.keyValid = s.keyValid ∧ t.lower = s.lower ∧ t.upper = s.upper ∧ t.schedule = s.schedule ∧
    t.lane.grid = s.lane.grid ∧ t.lane.din = s.lane.din ∧ t.lane.busy = s.lane.busy ∧
    t.lane.upc = s.lane.upc + 1 ∧ t.lane.port = s.lane.port ∧ t.lane.resp = s.lane.resp ∧
    ∀ (sp : Space) (a : Nat), sp ≠ .dout → readByte sp a t = readByte sp a s

/-- R150, R184: KXW i writes the four Bytes RKB[4i..4i+3] of W[i] and advances `upc`; every other word, every other
element, every other lane and every other Byte is unchanged. -/
def Obligations.KxwFrame : Prop :=
  ∀ (i : BitVec 6) (s t : State), exec (.kxw i) s = .next t →
    (∀ n : Fin 44, n.val ≠ i.toNat → t.w[n] = s.w[n]) ∧ t.keyValid = s.keyValid ∧
    t.lower = s.lower ∧ t.upper = s.upper ∧ t.schedule = s.schedule ∧
    t.lane = { s.lane with upc := s.lane.upc + 1 } ∧
    ∀ (sp : Space) (a : Nat), (sp = .rk → a < 4 * i.toNat ∨ 4 * i.toNat + 3 < a) →
      readByte sp a t = readByte sp a s

/-- R201, R206 to R208, R246: at acceptance KEYEXP, ENC and DEC leave W, S, DOUT, the port and every other lane
unchanged, and every Byte outside DIN. A command that is held changes nothing at all; one that is answered with an error
changes no element; one that starts is accepted, adds no response, and only KEYEXP changes KEY_VALID. -/
def Obligations.HostCommandFrame : Prop :=
  ∀ (i : Instr) (s t : State), i.format = .H → exec i s = .next t →
    t.w = s.w ∧ t.lower = s.lower ∧ t.upper = s.upper ∧ t.schedule = s.schedule ∧
    t.lane.grid = s.lane.grid ∧ t.lane.dout = s.lane.dout ∧ t.lane.port = s.lane.port ∧
    (∀ (sp : Space) (a : Nat), sp ≠ .din → readByte sp a t = readByte sp a s) ∧
    (canAccept (encode i) s = false → t = s) ∧
    ((canAccept (encode i) s = true ∧ t.lane.resp = s.lane.resp ∧ t.lane.busy = true ∧
        t.keyValid = (match i with | .keyexp _ => false | _ => s.keyValid)) ∨
      ∃ answer : List Response, answer.length ≤ 1 ∧
        t = { s with lane := { s.lane with resp := s.lane.resp ++ answer } })

/-! ## Acceptance and the host's view -/

/-- R240: the format-S bytes of the five statuses. -/
def Obligations.StatusCodes : Prop :=
  Status.code .ok = 0x00 ∧ Status.code .errKeyLen = 0x01 ∧ Status.code .errBlkLen = 0x02 ∧
  Status.code .errNoSched = 0x03 ∧ Status.code .errCmd = 0x04 ∧ ∀ st : Status, (Status.code st).toNat < 5

/-- R201: an accepted command that passes its checks latches its 16 Bytes in DIN, sets BUSY and the command's entry
point, KEYEXP also clears KEY_VALID, and nothing else changes. -/
def Obligations.HostCommandsStart : Prop :=
  ∀ (s : State) (b : Block),
    (allIdle s = true → exec (.keyexp b.toList) s = .next { s with
      keyValid := false, lane := { s.lane with din := .holds b, busy := true, upc := 84 } }) ∧
    (laneOpen s = true → s.keyValid = true → exec (.enc b.toList) s = .next { s with
      lane := { s.lane with din := .holds b, busy := true, upc := 0 } }) ∧
    (laneOpen s = true → s.keyValid = true → exec (.dec b.toList) s = .next { s with
      lane := { s.lane with din := .holds b, busy := true, upc := 42 } })

/-- R244: a reserved command byte is answered at acceptance with ERR_CMD and no data, whatever the length, and no state
element changes. -/
def Obligations.ReservedCommandAnswered : Prop :=
  ∀ (s : State) (cmd : Byte) (data : List Byte) (more : List Request),
    cmd = 0x00 ∨ 0x04 ≤ cmd → s.lane.port = ⟨cmd, data⟩ :: more → laneOpen s = true →
    laneStep s = .next { s with lane := { s.lane with port := more, resp := s.lane.resp ++ [⟨.errCmd, []⟩] } }

/-- R241, R242: an accepted command whose data is not exactly 16 Bytes is answered with ERR_KEYLEN or ERR_BLKLEN and no
data; no micro-operation executes and no state element changes. For ENC and DEC this is so whatever KEY_VALID is
(R245). -/
def Obligations.WrongLengthAnswered : Prop :=
  ∀ (s : State) (data : List Byte) (more : List Request), data.length ≠ 16 →
    (s.lane.port = ⟨0x01, data⟩ :: more → allIdle s = true →
      laneStep s = .next { s with
        lane := { s.lane with port := more, resp := s.lane.resp ++ [⟨.errKeyLen, []⟩] } }) ∧
    (∀ cmd : Byte, cmd = 0x02 ∨ cmd = 0x03 → s.lane.port = ⟨cmd, data⟩ :: more → laneOpen s = true →
      laneStep s = .next { s with
        lane := { s.lane with port := more, resp := s.lane.resp ++ [⟨.errBlkLen, []⟩] } })

/-- R243 (the hardware's status, the model's choice over the fault R243 suggests to a model, notes/assumptions/6.md): ENC
and DEC of 16 Bytes while KEY_VALID is 0 are answered with ERR_NOSCHED and no data, and no state element changes. -/
def Obligations.NoScheduleAnswered : Prop :=
  ∀ (s : State) (cmd : Byte) (data : List Byte) (more : List Request), cmd = 0x02 ∨ cmd = 0x03 →
    data.length = 16 → s.keyValid = false → s.lane.port = ⟨cmd, data⟩ :: more → laneOpen s = true →
    laneStep s = .next { s with lane := { s.lane with port := more, resp := s.lane.resp ++ [⟨.errNoSched, []⟩] } }

/-- R274, R275: KEYEXP is accepted exactly when every lane is idle, anything else exactly when its lane is idle and no
lane runs a KEYEXP; a request not accepted waits, and nothing changes; a busy lane's micro-step leaves the requests at
its port. Three readings here are the model's, not the spec's words: that a KEYEXP runs exactly where BUSY holds at
entries 84..127, deduced from the layout of R202 (notes/assumptions/19.md); that acceptance comes before the checks, so
that the holds apply to requests of a wrong length and to reserved command bytes too, deduced from R201
(notes/assumptions/20.md); and that waiting is a step (notes/assumptions/7.md). -/
def Obligations.HeldRequestsWait : Prop :=
  (∀ s : State, canAccept 0x01 s = true ↔ ∀ l ∈ s.lanes, l.busy = false) ∧
  (∀ (s : State) (cmd : Byte), cmd ≠ 0x01 → (canAccept cmd s = true ↔
    s.lane.busy = false ∧ ∀ l ∈ s.lanes, ¬(l.busy = true ∧ 84 ≤ l.upc.toNat))) ∧
  (∀ (s : State) (req : Request) (more : List Request), s.lane.busy = false → s.lane.port = req :: more →
    canAccept req.cmd s = false → laneStep s = .next s) ∧
  (∀ s : State, s.lane.busy = false → s.lane.port = [] → laneStep s = .next s) ∧
  (∀ s t : State, s.lane.busy = true → laneStep s = .next t → t.lane.port = s.lane.port)

/-! ## The sequencer -/

/-- A step runs the decoded instruction. The schedule names the lane that moves, in any order (R211): `turn k` gives the
step to lane k, the lanes, W and KEY_VALID being the same as before (R34). A busy lane's step is exec of the
micro-operation the word at `upc` decodes to, followed by the completion of R205 where it ends the run (R204); an idle
lane's step is exec of the command its accepted request decodes to, the request taken from the port (R201). Two cases
are the model's choice, not the spec's: with an empty schedule the lanes move in a ring, in order of number
(notes/assumptions/3.md), and a turn for a lane that does not exist goes to the lane that moved last
(notes/assumptions/18.md). -/
def Obligations.StepRunsDecodedInstruction : Prop :=
  (∀ (s : State) (k : Nat) (rest : List Event), s.schedule = .turn k :: rest →
    step s = laneStep (focus k { s with schedule := rest })) ∧
  (∀ (s : State) (k : Nat) (l : Lane), s.lanes[k]? = some l →
    (focus k s).lane = l ∧ (focus k s).laneNo = k ∧ (focus k s).lanes = s.lanes ∧ (focus k s).w = s.w ∧
    (focus k s).keyValid = s.keyValid ∧ (focus k s).schedule = s.schedule) ∧
  (∀ (s : State) (k : Nat), s.lanes[k]? = none → focus k s = s) ∧
  (∀ s : State, s.schedule = [] →
    step s = laneStep (focusNext s) ∧ focusNext s = focus ((s.laneNo + 1) % s.lanes.length) s) ∧
  (∀ (s : State) (i : Instr), s.lane.busy = true → decodeU (fetch s.lane.upc) = .ok i →
    laneStep s = match exec i s with
      | .next t => complete (ending i) t
      | .fault f => .fault f
      | .refused r => .refused r) ∧
  (∀ (s : State) (req : Request) (more : List Request) (i : Instr), s.lane.busy = false →
    s.lane.port = req :: more → canAccept req.cmd s = true → decodeH req.cmd req.data = .ok i →
    laneStep s = exec i { s with lane := { s.lane with port := more } })

/-- R204, R205, R213: a micro-step at entry 41 or 83 ends the run with response (OK, DOUT), DOUT the extracted State; one
at 127 ends it with (OK, -) and KEY_VALID set; both leave the lane idle, `upc` 0, S without a value, its bit
pattern as it was (R23), and one response more (S at 127 by R205 and R208: notes/assumptions/10.md). Every other
micro-step advances `upc` by exactly 1, keeps the lane busy and KEY_VALID as it was, and responds nothing. -/
def Obligations.MicroStepAdvancesOrCompletes : Prop :=
  ∀ s t : State, s.lane.busy = true → laneStep s = .next t →
    if s.lane.upc = 41 ∨ s.lane.upc = 83 then
      t.lane.busy = false ∧ t.lane.upc = 0 ∧ t.keyValid = s.keyValid ∧
        ∃ g, s.lane.grid = .holds g ∧ t.lane.grid = .noValue g ∧ t.lane.dout = .holds (blockOfGrid g) ∧
          t.lane.resp = s.lane.resp ++ [⟨.ok, (blockOfGrid g).toList⟩]
    else if s.lane.upc = 127 then
      t.lane.busy = false ∧ t.lane.upc = 0 ∧ t.lane.grid = .noValue s.lane.grid.bits ∧ t.keyValid = true ∧
        t.lane.resp = s.lane.resp ++ [⟨.ok, []⟩]
    else
      t.lane.busy = true ∧ t.lane.upc = s.lane.upc + 1 ∧ t.keyValid = s.keyValid ∧ t.lane.resp = s.lane.resp

/-! ## Whole transactions -/

/-- R206: ENC of 16 Bytes under a valid schedule, its lane given 43 turns (its acceptance and its 42 micro-steps),
responds (OK, cipher(W, data)) and writes DIN, S, DOUT, BUSY, UPC of its lane, never W or KEY_VALID. S is
discarded (R205), the final State its bit pattern (R23). -/
def Obligations.EncRunsToCiphertext : Prop :=
  ∀ (s : State) (b : Block) (more : List Request) (rest : List Event) (ks : KeyWords),
    s.schedule = List.replicate 43 (.turn s.laneNo) ++ rest → s.lane.port = ⟨0x02, b.toList⟩ :: more →
    laneOpen s = true → s.keyValid = true → (∀ n : Fin 44, s.w[n] = .holds ks[n]) →
    run 43 s = .next { s with
      schedule := rest
      lane := { s.lane with
        grid := .noValue (gridOfBlock (cipher ks b)), din := .holds b, dout := .holds (cipher ks b)
        busy := false, upc := 0, port := more
        resp := s.lane.resp ++ [⟨.ok, (cipher ks b).toList⟩] } }

/-- R207: DEC of 16 Bytes under a valid schedule, its lane given 43 turns, responds (OK, invcipher(W, data)), reading the
same schedule as ENC, and writes DIN, S, DOUT, BUSY, UPC of its lane, never W or KEY_VALID. S is
discarded (R205), the final State its bit pattern (R23). -/
def Obligations.DecRunsToPlaintext : Prop :=
  ∀ (s : State) (b : Block) (more : List Request) (rest : List Event) (ks : KeyWords),
    s.schedule = List.replicate 43 (.turn s.laneNo) ++ rest → s.lane.port = ⟨0x03, b.toList⟩ :: more →
    laneOpen s = true → s.keyValid = true → (∀ n : Fin 44, s.w[n] = .holds ks[n]) →
    run 43 s = .next { s with
      schedule := rest
      lane := { s.lane with
        grid := .noValue (gridOfBlock (invCipher ks b)), din := .holds b, dout := .holds (invCipher ks b)
        busy := false, upc := 0, port := more
        resp := s.lane.resp ++ [⟨.ok, (invCipher ks b).toList⟩] } }

/-- R208: KEYEXP of 16 Bytes with every lane idle, its lane given 45 turns, leaves in W the whole expansion of the key,
whatever W held, sets KEY_VALID and responds (OK, -), never writing DOUT. S is without a value at the end, its bit
pattern as it was: the model's choice, which follows R205 (the lane's S is discarded at the end of a run) over R208
(KEYEXP never writes S) where S held a value before (notes/assumptions/10.md). -/
def Obligations.KeyexpRunsToSchedule : Prop :=
  ∀ (s : State) (key : Block) (more : List Request) (rest : List Event),
    s.schedule = List.replicate 45 (.turn s.laneNo) ++ rest → s.lane.port = ⟨0x01, key.toList⟩ :: more →
    allIdle s = true →
    run 45 s = .next { s with
      w := Vector.ofFn fun n : Fin 44 => .holds (expand key)[n]
      keyValid := true
      schedule := rest
      lane := { s.lane with
        grid := .noValue s.lane.grid.bits, din := .holds key, busy := false, upc := 0, port := more
        resp := s.lane.resp ++ [⟨.ok, []⟩] } }

/-- R212: the step-by-step view and the whole-transaction view agree. For every request, accepted on an idle lane that is
given its turns, the run ends in the state and with the response of `transact`. -/
def Obligations.TransactionViewsAgree : Prop :=
  ∀ (s t : State) (req : Request) (r : Response) (more : List Request) (rest : List Event),
    s.schedule = List.replicate (transactionSteps s req) (.turn s.laneNo) ++ rest → s.lane.port = req :: more →
    canAccept req.cmd s = true → s.lane.upc = 0 → transact s req = some (t, r) →
    run (transactionSteps s req) s = .next { t with
      schedule := rest, lane := { t.lane with port := more, resp := s.lane.resp ++ [r] } }

/-- R210, as functions: for every 44 words, `invcipher` undoes `cipher` and `cipher` undoes `invcipher`. -/
def Obligations.CipherRoundTrip : Prop :=
  ∀ (ks : KeyWords) (b : Block), invCipher ks (cipher ks b) = b ∧ cipher ks (invCipher ks b) = b

/-- R210: for every key and block there is a block c that ENC responds with after KEYEXP, and DEC of c responds with the
block again; and the same with DEC and ENC exchanged. Both orders run on the engine itself, from any state with every
lane idle. -/
def Obligations.EngineRoundTrip : Prop :=
  ∀ key b : Block, ∀ cmd other : Byte, (cmd = 0x02 ∧ other = 0x03) ∨ (cmd = 0x03 ∧ other = 0x02) →
    ∃ c : Block, ∀ (s : State) (more : List Request) (rest : List Event),
      s.schedule = List.replicate 131 (.turn s.laneNo) ++ rest →
      s.lane.port = ⟨0x01, key.toList⟩ :: ⟨cmd, b.toList⟩ :: ⟨other, c.toList⟩ :: more → allIdle s = true →
      ∃ t, run 131 s = .next t ∧
        t.lane.resp = s.lane.resp ++ [⟨.ok, []⟩, ⟨.ok, c.toList⟩, ⟨.ok, b.toList⟩]

/-- R185, R186: the expansion satisfies the recurrence at every word, the recurrence runs backwards, and different keys
give different schedules. -/
def Obligations.ExpansionRecurrence : Prop :=
  (∀ (key : Block) (n : Fin 44), n.val < 4 → (expand key)[n] = keyWord key n.val) ∧
  (∀ (key : Block) (n : Nat) (h : n < 44), 4 ≤ n →
    (expand key)[n] = xorWord (expand key)[n - 4] (kxwTemp n (expand key)[n - 1]) ∧
    (expand key)[n - 4] = xorWord (expand key)[n] (kxwTemp n (expand key)[n - 1])) ∧
  (∀ k1 k2 : Block, expand k1 = expand k2 → k1 = k2)

/-! ## Reset, invariants, lanes -/

/-- R35, R270: after reset, with any number of lanes, KEY_VALID, BUSY and UPC are 0 and W, S, DIN, DOUT hold no value. The
number of lanes of `State.reset` is the default, 1 (R7). -/
def Obligations.ResetValues : Prop :=
  (∀ n : Nat, (State.resetLanes n).lanes.length = n + 1 ∧ (State.resetLanes n).keyValid = false ∧
    (∀ j : Fin 44, (State.resetLanes n).w[j].value? = none) ∧
    ∀ l ∈ (State.resetLanes n).lanes,
      l.busy = false ∧ l.upc = 0 ∧ l.grid.value? = none ∧ l.din.value? = none ∧ l.dout.value? = none) ∧
  State.reset = State.resetLanes 0

/-- R270: a reset event, in any state, leaves every element of every lane at its value after reset; a transaction in
progress is abandoned without a response. What is the host's stays, which is the model's choice (notes/assumptions/11.md):
the requests at each lane's port, the record of the responses given, the rest of the schedule, the number of lanes. -/
def Obligations.ResetEventResetsEngine : Prop :=
  ∀ (s : State) (rest : List Event), s.schedule = .reset :: rest →
    ∃ t, step s = .next t ∧ t.schedule = rest ∧ t.keyValid = false ∧ (∀ j : Fin 44, t.w[j].value? = none) ∧
      t.lanes.map (fun l => l.resp) = s.lanes.map (fun l => l.resp) ∧
      t.lanes.map (fun l => l.port) = s.lanes.map (fun l => l.port) ∧
      ∀ l ∈ t.lanes, l.busy = false ∧ l.upc = 0 ∧ l.grid.value? = none ∧ l.din.value? = none ∧ l.dout.value? = none

/-- The invariant holds after reset, with any number of lanes (R35, R270). -/
def Obligations.ResetMeetsInvariant : Prop := ∀ n : Nat, Inv (State.resetLanes n)

/-- Every step keeps the invariant: idle lanes at entry 0 with S discarded, running lanes with the elements they will
read written, KEY_VALID only over the expansion of a key, a running KEYEXP exclusive (R22, R26, R29, R205, R275). -/
def Obligations.StepKeepsInvariant : Prop := ∀ s t : State, Inv s → step s = .next t → Inv t

/-- R248, R249, R272, R279: in every state that meets the invariant a step gives a next state: NoValueRead and BadMicroOp
are unreachable, and a busy lane always has its micro-step. -/
def Obligations.NoFaultUnderInvariant : Prop := ∀ s : State, Inv s → SafeStep s

/-- R276: a lane's step changes W or KEY_VALID only where it runs a KEYEXP or accepts one of 16 Bytes; and a step of the
engine only where it is a reset event, some lane runs a KEYEXP, or every lane is idle and one presents a KEYEXP of 16
Bytes. No ENC, DEC, failed request or idle time does. -/
def Obligations.ScheduleReadOnly : Prop :=
  (∀ s t : State, laneStep s = .next t → s.lane.runsKeyexp = false →
    ¬(s.lane.busy = false ∧ allIdle s = true ∧
      ∃ (data : List Byte) (more : List Request), s.lane.port = ⟨0x01, data⟩ :: more ∧ data.length = 16) →
    t.w = s.w ∧ t.keyValid = s.keyValid) ∧
  (∀ s t : State, step s = .next t → t.w ≠ s.w ∨ t.keyValid ≠ s.keyValid →
    (∃ rest, s.schedule = .reset :: rest) ∨ (∃ l ∈ s.lanes, l.runsKeyexp = true) ∨
    (allIdle s = true ∧ ∃ l ∈ s.lanes, ∃ (data : List Byte) (more : List Request),
      l.port = ⟨0x01, data⟩ :: more ∧ data.length = 16))

/-- R34, R211, R253: a lane's step changes no other lane. In a step of the engine in which the schedule gives lane k its
turn, every lane but k is as it was; in any step but a reset event, every lane but one is; and no step changes the
number of lanes. -/
def Obligations.OtherLanesUntouched : Prop :=
  (∀ s t : State, laneStep s = .next t → t.lower = s.lower ∧ t.upper = s.upper ∧ t.schedule = s.schedule) ∧
  (∀ (s t : State) (k : Nat) (rest : List Event), s.schedule = .turn k :: rest → k < s.lanes.length →
    step s = .next t → ∀ j : Nat, j ≠ k → t.lanes[j]? = s.lanes[j]?) ∧
  (∀ s t : State, (∀ rest : List Event, s.schedule ≠ .reset :: rest) → step s = .next t →
    ∃ k : Nat, ∀ j : Nat, j ≠ k → t.lanes[j]? = s.lanes[j]?) ∧
  (∀ s t : State, step s = .next t → t.lanes.length = s.lanes.length)

/-- R62, R211: micro-steps of two different lanes in block transforms commute: given the two turns in either order, the
engine ends in the same state, up to which lane moved last. -/
def Obligations.LaneTurnsCommute : Prop :=
  ∀ (s t : State) (j k : Nat) (a b : Lane) (rest : List Event), j ≠ k → s.lanes[j]? = some a → s.lanes[k]? = some b →
    a.busy = true → a.upc.toNat < 84 → b.busy = true → b.upc.toNat < 84 →
    run 2 { s with schedule := .turn j :: .turn k :: rest } = .next t →
    ∃ u, run 2 { s with schedule := .turn k :: .turn j :: rest } = .next u ∧
      u.lanes = t.lanes ∧ u.w = t.w ∧ u.keyValid = t.keyValid ∧ u.schedule = t.schedule
end

