-- ==== Sys2Proof/Laws/Grid.lean ====
section
/-! SUPPORT. Grids and blocks entry by entry: reading a built grid, equality of grids, and the two index maps. -/

namespace Sys2Proof.Machine

/-- An entry of a built grid is the entry it was built from. -/
@[simp] theorem cell_gridOf (f : Fin 4 → Fin 4 → Byte) (row col : Fin 4) : cell (gridOf f) row col = f row col := by
  simp [gridOf, cell]

/-- A Byte of a built block. -/
@[simp] theorem blockByte_blockOf (f : Fin 16 → Byte) (n : Fin 16) : blockByte (blockOf f) n = f n := by
  simp [blockOf, blockByte]

/-- A Byte of a built word. -/
@[simp] theorem wordByte_wordOf (f : Fin 4 → Byte) (j : Fin 4) : wordByte (wordOf f) j = f j := by
  simp [wordOf, wordByte]

/-- Grids with equal entries are equal. -/
theorem grid_ext {g h : Grid} (e : ∀ row col, cell g row col = cell h row col) : g = h :=
  Vector.ext fun r hr => Vector.ext fun c hc => e ⟨r, hr⟩ ⟨c, hc⟩

/-- Blocks with equal Bytes are equal. -/
theorem block_ext {a b : Block} (e : ∀ n, blockByte a n = blockByte b n) : a = b :=
  Vector.ext fun n hn => e ⟨n, hn⟩

/-- Words with equal Bytes are equal. -/
theorem word_ext {u v : Word} (e : ∀ j, wordByte u j = wordByte v j) : u = v :=
  Vector.ext fun j hj => e ⟨j, hj⟩

/-- A grid is built from its entries. -/
@[simp] theorem gridOf_cell (g : Grid) : gridOf (cell g) = g := grid_ext fun row col => cell_gridOf _ row col

/-- The row of the index of `(row, col)` is `row` (R52). -/
@[simp] theorem blockRow_blockIndex (row col : Fin 4) : blockRow (blockIndex row col) = row := by
  ext; simp [blockRow, blockIndex]

/-- The column of the index of `(row, col)` is `col` (R52). -/
@[simp] theorem blockCol_blockIndex (row col : Fin 4) : blockCol (blockIndex row col) = col := by
  ext; simp only [blockCol, blockIndex]; omega

/-- The index of the row and column of `n` is `n` (R52). -/
@[simp] theorem blockIndex_row_col (n : Fin 16) : blockIndex (blockRow n) (blockCol n) = n := by
  ext; simp only [blockRow, blockCol, blockIndex]; omega

/-- An entry of a loaded block (R151). -/
@[simp] theorem cell_gridOfBlock (b : Block) (row col : Fin 4) :
    cell (gridOfBlock b) row col = blockByte b (blockIndex row col) := cell_gridOf _ _ _

/-- A Byte of an extracted grid (R152). -/
@[simp] theorem blockByte_blockOfGrid (g : Grid) (n : Fin 16) :
    blockByte (blockOfGrid g) n = cell g (blockRow n) (blockCol n) := blockByte_blockOf _ _

/-- Extracting a loaded block gives it back: the two index maps are inverse (R152). -/
@[simp] theorem blockOfGrid_gridOfBlock (b : Block) : blockOfGrid (gridOfBlock b) = b := block_ext fun n => by simp

/-- Loading an extracted grid gives it back (R152). -/
@[simp] theorem gridOfBlock_blockOfGrid (g : Grid) : gridOfBlock (blockOfGrid g) = g := grid_ext fun row col => by simp

/-- An entry after Substitute (R153). -/
@[simp] theorem cell_subGrid (g : Grid) (row col : Fin 4) : cell (subGrid g) row col = sbox (cell g row col) :=
  cell_gridOf _ _ _

/-- An entry after Inverse-Substitute (R154). -/
@[simp] theorem cell_isubGrid (g : Grid) (row col : Fin 4) : cell (isubGrid g) row col = isbox (cell g row col) :=
  cell_gridOf _ _ _

/-- An entry after Shift-Rows (R155). -/
@[simp] theorem cell_shrGrid (g : Grid) (row col : Fin 4) : cell (shrGrid g) row col = cell g row (col + row) :=
  cell_gridOf _ _ _

/-- An entry after Inverse-Shift-Rows (R156). -/
@[simp] theorem cell_ishrGrid (g : Grid) (row col : Fin 4) : cell (ishrGrid g) row col = cell g row (col - row) :=
  cell_gridOf _ _ _

/-- An entry after Add-Round-Key (R160). -/
@[simp] theorem cell_arkGrid (k : Vector Word 4) (g : Grid) (row col : Fin 4) :
    cell (arkGrid k g) row col = cell g row col ^^^ wordByte k[col] row := cell_gridOf _ _ _

/-- An entry of a column (R157). -/
@[simp] theorem wordByte_column (g : Grid) (row col : Fin 4) : wordByte (column g col) row = cell g row col :=
  wordByte_wordOf _ _

/-- An entry of a product (R157). -/
@[simp] theorem wordByte_mixcol (m : Matrix4) (v : Word) (i : Fin 4) : wordByte (mixcol m v) i = mixEntry m v i :=
  wordByte_wordOf _ _

/-- An entry after a column product (R158, R159). -/
@[simp] theorem cell_mixGridWith (m : Matrix4) (g : Grid) (row col : Fin 4) :
    cell (mixGridWith m g) row col = mixEntry m (column g col) row := by
  rw [mixGridWith, cell_gridOf, wordByte_mixcol]

/-- A Byte of an exclusive-or of words (R9). -/
@[simp] theorem wordByte_xorWord (u v : Word) (j : Fin 4) :
    wordByte (xorWord u v) j = wordByte u j ^^^ wordByte v j := wordByte_wordOf _ _

end Sys2Proof.Machine
end

