-- ==== Sys2Proof/Laws/State.lean ====
section
/-! SUPPORT. One lemma per field per update of the state, each true by unfolding, so that no later proof unfolds a record
update. -/

namespace Sys2Proof.Machine

/-! ## What an element holds -/

@[simp] theorem value?_holds {α : Type} (v : α) : (Content.holds v).value? = some v := rfl
@[simp] theorem value?_noValue {α : Type} (b : α) : (Content.noValue b).value? = none := rfl
@[simp] theorem value?_discard {α : Type} (c : Content α) : c.discard.value? = none := rfl
@[simp] theorem bits_holds {α : Type} (v : α) : (Content.holds v).bits = v := rfl
@[simp] theorem bits_noValue {α : Type} (b : α) : (Content.noValue b).bits = b := rfl
@[simp] theorem bits_discard {α : Type} (c : Content α) : c.discard.bits = c.bits := rfl

/-- An element gives a value exactly when it holds that value. -/
@[simp] theorem value?_eq_some {α : Type} {c : Content α} {v : α} : c.value? = some v ↔ c = .holds v := by
  cases c <;> simp [Content.value?]

/-! ## writeGrid -/

@[simp] theorem writeGrid_w (g : Grid) (s : State) : (writeGrid g s).w = s.w := rfl
@[simp] theorem writeGrid_keyValid (g : Grid) (s : State) : (writeGrid g s).keyValid = s.keyValid := rfl
@[simp] theorem writeGrid_lower (g : Grid) (s : State) : (writeGrid g s).lower = s.lower := rfl
@[simp] theorem writeGrid_upper (g : Grid) (s : State) : (writeGrid g s).upper = s.upper := rfl
@[simp] theorem writeGrid_schedule (g : Grid) (s : State) : (writeGrid g s).schedule = s.schedule := rfl
@[simp] theorem writeGrid_lane_grid (g : Grid) (s : State) : (writeGrid g s).lane.grid = .holds g := rfl
@[simp] theorem writeGrid_lane_din (g : Grid) (s : State) : (writeGrid g s).lane.din = s.lane.din := rfl
@[simp] theorem writeGrid_lane_dout (g : Grid) (s : State) : (writeGrid g s).lane.dout = s.lane.dout := rfl
@[simp] theorem writeGrid_lane_busy (g : Grid) (s : State) : (writeGrid g s).lane.busy = s.lane.busy := rfl
@[simp] theorem writeGrid_lane_upc (g : Grid) (s : State) : (writeGrid g s).lane.upc = s.lane.upc := rfl
@[simp] theorem writeGrid_lane_port (g : Grid) (s : State) : (writeGrid g s).lane.port = s.lane.port := rfl
@[simp] theorem writeGrid_lane_resp (g : Grid) (s : State) : (writeGrid g s).lane.resp = s.lane.resp := rfl

/-! ## writeDout -/

@[simp] theorem writeDout_w (b : Block) (s : State) : (writeDout b s).w = s.w := rfl
@[simp] theorem writeDout_keyValid (b : Block) (s : State) : (writeDout b s).keyValid = s.keyValid := rfl
@[simp] theorem writeDout_lower (b : Block) (s : State) : (writeDout b s).lower = s.lower := rfl
@[simp] theorem writeDout_upper (b : Block) (s : State) : (writeDout b s).upper = s.upper := rfl
@[simp] theorem writeDout_schedule (b : Block) (s : State) : (writeDout b s).schedule = s.schedule := rfl
@[simp] theorem writeDout_lane_grid (b : Block) (s : State) : (writeDout b s).lane.grid = s.lane.grid := rfl
@[simp] theorem writeDout_lane_din (b : Block) (s : State) : (writeDout b s).lane.din = s.lane.din := rfl
@[simp] theorem writeDout_lane_dout (b : Block) (s : State) : (writeDout b s).lane.dout = .holds b := rfl
@[simp] theorem writeDout_lane_busy (b : Block) (s : State) : (writeDout b s).lane.busy = s.lane.busy := rfl
@[simp] theorem writeDout_lane_upc (b : Block) (s : State) : (writeDout b s).lane.upc = s.lane.upc := rfl
@[simp] theorem writeDout_lane_port (b : Block) (s : State) : (writeDout b s).lane.port = s.lane.port := rfl
@[simp] theorem writeDout_lane_resp (b : Block) (s : State) : (writeDout b s).lane.resp = s.lane.resp := rfl

/-! ## writeW -/

@[simp] theorem writeW_w (n : Nat) (v : Word) (s : State) : (writeW n v s).w = s.w.setIfInBounds n (.holds v) := rfl
@[simp] theorem writeW_keyValid (n : Nat) (v : Word) (s : State) : (writeW n v s).keyValid = s.keyValid := rfl
@[simp] theorem writeW_lower (n : Nat) (v : Word) (s : State) : (writeW n v s).lower = s.lower := rfl
@[simp] theorem writeW_upper (n : Nat) (v : Word) (s : State) : (writeW n v s).upper = s.upper := rfl
@[simp] theorem writeW_schedule (n : Nat) (v : Word) (s : State) : (writeW n v s).schedule = s.schedule := rfl
@[simp] theorem writeW_lane_grid (n : Nat) (v : Word) (s : State) : (writeW n v s).lane.grid = s.lane.grid := rfl
@[simp] theorem writeW_lane_din (n : Nat) (v : Word) (s : State) : (writeW n v s).lane.din = s.lane.din := rfl
@[simp] theorem writeW_lane_dout (n : Nat) (v : Word) (s : State) : (writeW n v s).lane.dout = s.lane.dout := rfl
@[simp] theorem writeW_lane_busy (n : Nat) (v : Word) (s : State) : (writeW n v s).lane.busy = s.lane.busy := rfl
@[simp] theorem writeW_lane_upc (n : Nat) (v : Word) (s : State) : (writeW n v s).lane.upc = s.lane.upc := rfl
@[simp] theorem writeW_lane_port (n : Nat) (v : Word) (s : State) : (writeW n v s).lane.port = s.lane.port := rfl
@[simp] theorem writeW_lane_resp (n : Nat) (v : Word) (s : State) : (writeW n v s).lane.resp = s.lane.resp := rfl

/-! ## advance -/

@[simp] theorem advance_w (s : State) : (advance s).w = s.w := rfl
@[simp] theorem advance_keyValid (s : State) : (advance s).keyValid = s.keyValid := rfl
@[simp] theorem advance_lower (s : State) : (advance s).lower = s.lower := rfl
@[simp] theorem advance_upper (s : State) : (advance s).upper = s.upper := rfl
@[simp] theorem advance_schedule (s : State) : (advance s).schedule = s.schedule := rfl
@[simp] theorem advance_lane_grid (s : State) : (advance s).lane.grid = s.lane.grid := rfl
@[simp] theorem advance_lane_din (s : State) : (advance s).lane.din = s.lane.din := rfl
@[simp] theorem advance_lane_dout (s : State) : (advance s).lane.dout = s.lane.dout := rfl
@[simp] theorem advance_lane_busy (s : State) : (advance s).lane.busy = s.lane.busy := rfl
@[simp] theorem advance_lane_upc (s : State) : (advance s).lane.upc = s.lane.upc + 1 := rfl
@[simp] theorem advance_lane_port (s : State) : (advance s).lane.port = s.lane.port := rfl
@[simp] theorem advance_lane_resp (s : State) : (advance s).lane.resp = s.lane.resp := rfl

/-! ## respond -/

@[simp] theorem respond_w (st : Status) (out : List Byte) (s : State) : (respond st out s).w = s.w := rfl
@[simp] theorem respond_keyValid (st : Status) (out : List Byte) (s : State) : (respond st out s).keyValid = s.keyValid := rfl
@[simp] theorem respond_lower (st : Status) (out : List Byte) (s : State) : (respond st out s).lower = s.lower := rfl
@[simp] theorem respond_upper (st : Status) (out : List Byte) (s : State) : (respond st out s).upper = s.upper := rfl
@[simp] theorem respond_schedule (st : Status) (out : List Byte) (s : State) : (respond st out s).schedule = s.schedule := rfl
@[simp] theorem respond_lane_grid (st : Status) (out : List Byte) (s : State) : (respond st out s).lane.grid = s.lane.grid := rfl
@[simp] theorem respond_lane_din (st : Status) (out : List Byte) (s : State) : (respond st out s).lane.din = s.lane.din := rfl
@[simp] theorem respond_lane_dout (st : Status) (out : List Byte) (s : State) : (respond st out s).lane.dout = s.lane.dout := rfl
@[simp] theorem respond_lane_busy (st : Status) (out : List Byte) (s : State) : (respond st out s).lane.busy = s.lane.busy := rfl
@[simp] theorem respond_lane_upc (st : Status) (out : List Byte) (s : State) : (respond st out s).lane.upc = s.lane.upc := rfl
@[simp] theorem respond_lane_port (st : Status) (out : List Byte) (s : State) : (respond st out s).lane.port = s.lane.port := rfl
@[simp] theorem respond_lane_resp (st : Status) (out : List Byte) (s : State) : (respond st out s).lane.resp = s.lane.resp ++ [⟨st, out⟩] := rfl

/-! ## start -/

@[simp] theorem start_w (e : BitVec 7) (b : Block) (s : State) : (start e b s).w = s.w := rfl
@[simp] theorem start_keyValid (e : BitVec 7) (b : Block) (s : State) : (start e b s).keyValid = s.keyValid := rfl
@[simp] theorem start_lower (e : BitVec 7) (b : Block) (s : State) : (start e b s).lower = s.lower := rfl
@[simp] theorem start_upper (e : BitVec 7) (b : Block) (s : State) : (start e b s).upper = s.upper := rfl
@[simp] theorem start_schedule (e : BitVec 7) (b : Block) (s : State) : (start e b s).schedule = s.schedule := rfl
@[simp] theorem start_lane_grid (e : BitVec 7) (b : Block) (s : State) : (start e b s).lane.grid = s.lane.grid := rfl
@[simp] theorem start_lane_din (e : BitVec 7) (b : Block) (s : State) : (start e b s).lane.din = .holds b := rfl
@[simp] theorem start_lane_dout (e : BitVec 7) (b : Block) (s : State) : (start e b s).lane.dout = s.lane.dout := rfl
@[simp] theorem start_lane_busy (e : BitVec 7) (b : Block) (s : State) : (start e b s).lane.busy = true := rfl
@[simp] theorem start_lane_upc (e : BitVec 7) (b : Block) (s : State) : (start e b s).lane.upc = e := rfl
@[simp] theorem start_lane_port (e : BitVec 7) (b : Block) (s : State) : (start e b s).lane.port = s.lane.port := rfl
@[simp] theorem start_lane_resp (e : BitVec 7) (b : Block) (s : State) : (start e b s).lane.resp = s.lane.resp := rfl

/-! ## goIdle -/

@[simp] theorem goIdle_w (s : State) : (goIdle s).w = s.w := rfl
@[simp] theorem goIdle_keyValid (s : State) : (goIdle s).keyValid = s.keyValid := rfl
@[simp] theorem goIdle_lower (s : State) : (goIdle s).lower = s.lower := rfl
@[simp] theorem goIdle_upper (s : State) : (goIdle s).upper = s.upper := rfl
@[simp] theorem goIdle_schedule (s : State) : (goIdle s).schedule = s.schedule := rfl
@[simp] theorem goIdle_lane_grid (s : State) : (goIdle s).lane.grid = s.lane.grid.discard := rfl
@[simp] theorem goIdle_lane_din (s : State) : (goIdle s).lane.din = s.lane.din := rfl
@[simp] theorem goIdle_lane_dout (s : State) : (goIdle s).lane.dout = s.lane.dout := rfl
@[simp] theorem goIdle_lane_busy (s : State) : (goIdle s).lane.busy = false := rfl
@[simp] theorem goIdle_lane_upc (s : State) : (goIdle s).lane.upc = 0 := rfl
@[simp] theorem goIdle_lane_port (s : State) : (goIdle s).lane.port = s.lane.port := rfl
@[simp] theorem goIdle_lane_resp (s : State) : (goIdle s).lane.resp = s.lane.resp := rfl

/-! ## takeRequest -/

@[simp] theorem takeRequest_w (s : State) : (takeRequest s).w = s.w := rfl
@[simp] theorem takeRequest_keyValid (s : State) : (takeRequest s).keyValid = s.keyValid := rfl
@[simp] theorem takeRequest_lower (s : State) : (takeRequest s).lower = s.lower := rfl
@[simp] theorem takeRequest_upper (s : State) : (takeRequest s).upper = s.upper := rfl
@[simp] theorem takeRequest_schedule (s : State) : (takeRequest s).schedule = s.schedule := rfl
@[simp] theorem takeRequest_lane_grid (s : State) : (takeRequest s).lane.grid = s.lane.grid := rfl
@[simp] theorem takeRequest_lane_din (s : State) : (takeRequest s).lane.din = s.lane.din := rfl
@[simp] theorem takeRequest_lane_dout (s : State) : (takeRequest s).lane.dout = s.lane.dout := rfl
@[simp] theorem takeRequest_lane_busy (s : State) : (takeRequest s).lane.busy = s.lane.busy := rfl
@[simp] theorem takeRequest_lane_upc (s : State) : (takeRequest s).lane.upc = s.lane.upc := rfl
@[simp] theorem takeRequest_lane_port (s : State) : (takeRequest s).lane.port = s.lane.port.tail := rfl
@[simp] theorem takeRequest_lane_resp (s : State) : (takeRequest s).lane.resp = s.lane.resp := rfl

/-! ## setKeyValid -/

@[simp] theorem setKeyValid_w (v : Bool) (s : State) : (setKeyValid v s).w = s.w := rfl
@[simp] theorem setKeyValid_keyValid (v : Bool) (s : State) : (setKeyValid v s).keyValid = v := rfl
@[simp] theorem setKeyValid_lower (v : Bool) (s : State) : (setKeyValid v s).lower = s.lower := rfl
@[simp] theorem setKeyValid_upper (v : Bool) (s : State) : (setKeyValid v s).upper = s.upper := rfl
@[simp] theorem setKeyValid_schedule (v : Bool) (s : State) : (setKeyValid v s).schedule = s.schedule := rfl
@[simp] theorem setKeyValid_lane_grid (v : Bool) (s : State) : (setKeyValid v s).lane.grid = s.lane.grid := rfl
@[simp] theorem setKeyValid_lane_din (v : Bool) (s : State) : (setKeyValid v s).lane.din = s.lane.din := rfl
@[simp] theorem setKeyValid_lane_dout (v : Bool) (s : State) : (setKeyValid v s).lane.dout = s.lane.dout := rfl
@[simp] theorem setKeyValid_lane_busy (v : Bool) (s : State) : (setKeyValid v s).lane.busy = s.lane.busy := rfl
@[simp] theorem setKeyValid_lane_upc (v : Bool) (s : State) : (setKeyValid v s).lane.upc = s.lane.upc := rfl
@[simp] theorem setKeyValid_lane_port (v : Bool) (s : State) : (setKeyValid v s).lane.port = s.lane.port := rfl
@[simp] theorem setKeyValid_lane_resp (v : Bool) (s : State) : (setKeyValid v s).lane.resp = s.lane.resp := rfl

/-! ## The moving lane as a whole, where an operation leaves it alone -/

@[simp] theorem writeW_lane (n : Nat) (v : Word) (s : State) : (writeW n v s).lane = s.lane := rfl
@[simp] theorem setKeyValid_lane (v : Bool) (s : State) : (setKeyValid v s).lane = s.lane := rfl

/-! ## The error response is a response with no data -/

@[simp] theorem raise_eq_respond (e : Status) (s : State) : raise e s = respond e [] s := rfl

end Sys2Proof.Machine
end

