-- ==== Sys2Proof/Laws/Ops.lean ====
section
/-! SUPPORT. One lemma per shared operation, saying everything it can do; proofs cite these instead of unfolding. -/

namespace Sys2Proof.Machine

/-! ## Reads that may find no value -/

@[simp] theorem withValue_some {α : Type} (v : α) (k : α → Result) : withValue (some v) k = k v := rfl
@[simp] theorem withValue_none {α : Type} (k : α → Result) : withValue none k = .fault .noValueRead := rfl

/-- A read goes on to a next state exactly when there is a value and what follows does. -/
theorem withValue_next {α : Type} {o : Option α} {k : α → Result} {t : State} :
    withValue o k = .next t ↔ ∃ v, o = some v ∧ k v = .next t := by
  cases o <;> simp

/-- Reading past the 44 words finds nothing, and within them the word (R24). -/
theorem readW_lt {n : Nat} (h : n < 44) (s : State) : readW n s = s.w[n].value? := by
  simp [readW, h]

/-- `W` after `W[n] <- v`, word by word (R184). -/
theorem readW_writeW (m n : Nat) (v : Word) (s : State) :
    readW m (writeW n v s) = if m = n ∧ n < 44 then some v else readW m s := by
  by_cases hm : m < 44
  · by_cases h : n = m
    · subst h; simp [readW, hm]
    · simp [readW, hm, h, Ne.symm h]
  · have : ¬(m = n ∧ n < 44) := by omega
    simp [readW, hm, this]

/-- A round key is four words that hold values (R25). -/
theorem readRoundKey_some {r : Nat} {s : State} {k : Vector Word 4} :
    readRoundKey r s = some k ↔ ∀ c : Fin 4, readW (4 * r + c.val) s = some k[c] := by
  constructor
  · intro h
    unfold readRoundKey at h
    split at h
    · rename_i k0 k1 k2 k3 h0 h1 h2 h3
      cases h
      intro c
      match c with
      | 0 => simpa using h0
      | 1 => simpa using h1
      | 2 => simpa using h2
      | 3 => simpa using h3
    · cases h
  · intro h
    have h0 := h 0
    have h1 := h 1
    have h2 := h 2
    have h3 := h 3
    simp only [Fin.isValue, Fin.val_zero, Nat.add_zero, Fin.val_one, Fin.val_two, show (3 : Fin 4).val = 3 from rfl]
      at h0 h1 h2 h3
    unfold readRoundKey
    rw [h0, h1, h2, h3]
    refine congrArg some (Vector.ext fun j hj => ?_)
    match j, hj with
    | 0, _ => rfl
    | 1, _ => rfl
    | 2, _ => rfl
    | 3, _ => rfl

/-! ## Micro-operations -/

/-- Everything a State-to-State micro-operation can do: fault where `S` holds no value, else write the image of `S` and
advance (R150). -/
theorem transform_eq (f : Grid → Grid) (s : State) :
    transform f s = match s.lane.grid with
      | .holds g => .next (advance (writeGrid (f g) s))
      | .noValue _ => .fault .noValueRead := by
  unfold transform withValue
  cases s.lane.grid <;> rfl

/-- When a State-to-State micro-operation gives a next state, and which. -/
theorem transform_next {f : Grid → Grid} {s t : State} :
    transform f s = .next t ↔ ∃ g, s.lane.grid = .holds g ∧ t = advance (writeGrid (f g) s) := by
  simp only [transform, withValue_next, Host.Outcome.next.injEq]
  exact exists_congr fun g => and_congr value?_eq_some eq_comm

/-- When `ARK r` gives a next state, and which (R160). -/
theorem execArk_next {r : BitVec 4} {s t : State} :
    execArk r s = .next t ↔ r.toNat ≤ 10 ∧ ∃ k g, readRoundKey r.toNat s = some k ∧ s.lane.grid = .holds g ∧
      t = advance (writeGrid (arkGrid k g) s) := by
  unfold execArk Config.rounds
  split <;> simp_all [withValue_next, transform_next]

/-- When `KXW i` gives a next state, and which (R184). -/
theorem execKxw_next {i : BitVec 6} {s t : State} :
    execKxw i s = .next t ↔ i.toNat < 44 ∧ ∃ v, kxwWord i.toNat s = some v ∧ t = advance (writeW i.toNat v s) := by
  unfold execKxw Config.keyWords
  split
  · rename_i h
    simp only [withValue_next, Host.Outcome.next.injEq, h, true_and]
    exact exists_congr fun v => and_congr_right fun _ => eq_comm
  · simp_all

/-! ## Host commands -/

/-- `KEYEXP` is accepted when every lane is idle (R275). -/
@[simp] theorem canAccept_keyexp (s : State) : canAccept 1#8 s = allIdle s := rfl

/-- `ENC` is accepted when the lane is open (R274, R275). -/
@[simp] theorem canAccept_enc (s : State) : canAccept 2#8 s = laneOpen s := rfl

/-- `DEC` is accepted when the lane is open (R274, R275). -/
@[simp] theorem canAccept_dec (s : State) : canAccept 3#8 s = laneOpen s := rfl

/-- The data operand is a block exactly when it has 16 Bytes (R81). -/
theorem blockOfBytes?_none {data : List Byte} : blockOfBytes? data = none ↔ data.length ≠ 16 := by
  simp [blockOfBytes?, Config.blockBytes]

/-- Data that is a block holds that block's Bytes in order (R53). -/
theorem blockOfBytes?_some {data : List Byte} {b : Block} :
    blockOfBytes? data = some b ↔ data.length = 16 ∧ data = b.toList := by
  unfold blockOfBytes? Config.blockBytes
  constructor
  · intro h
    split at h
    · rename_i hl
      refine ⟨hl, ?_⟩
      cases h
      apply List.ext_getElem
      · simp [hl]
      · intro n h1 h2
        simp [blockOf, h1]
    · cases h
  · rintro ⟨h, rfl⟩
    simp only [h, if_true, Option.some.injEq]
    apply Vector.ext
    intro n hn
    simp [blockOf]

/-- The Bytes of a block are a legal data operand. -/
@[simp] theorem blockOfBytes?_toList (b : Block) : blockOfBytes? b.toList = some b :=
  blockOfBytes?_some.2 ⟨by simp, rfl⟩

/-- Everything a block command can do: be held, answer one of two errors, or start (R201). -/
theorem blockCommand_cases (cmd : Byte) (entry : BitVec 7) (data : List Byte) (s : State) :
    (canAccept cmd s = false ∧ blockCommand cmd entry data s = .next s) ∨
    (canAccept cmd s = true ∧ data.length ≠ 16 ∧ blockCommand cmd entry data s = .next (raise .errBlkLen s)) ∨
    (canAccept cmd s = true ∧ data.length = 16 ∧ s.keyValid = false ∧
      blockCommand cmd entry data s = .next (raise .errNoSched s)) ∨
    (∃ b : Block, canAccept cmd s = true ∧ data = b.toList ∧ s.keyValid = true ∧
      blockCommand cmd entry data s = .next (start entry b s)) := by
  cases hc : canAccept cmd s
  · exact .inl ⟨rfl, by simp [blockCommand, hc]⟩
  · cases hb : blockOfBytes? data with
    | none => exact .inr (.inl ⟨rfl, blockOfBytes?_none.1 hb, by simp [blockCommand, hc, hb]⟩)
    | some b =>
      obtain ⟨hl, hd⟩ := blockOfBytes?_some.1 hb
      cases hk : s.keyValid
      · exact .inr (.inr (.inl ⟨rfl, hl, rfl, by simp [blockCommand, hc, hb, hk]⟩))
      · exact .inr (.inr (.inr ⟨b, rfl, hd, rfl, by simp [blockCommand, hc, hb, hk]⟩))

/-- Everything `KEYEXP` can do at its acceptance: be held, answer ERR_KEYLEN, or start (R201, R208). -/
theorem execKeyexp_cases (data : List Byte) (s : State) :
    (allIdle s = false ∧ execKeyexp data s = .next s) ∨
    (allIdle s = true ∧ data.length ≠ 16 ∧ execKeyexp data s = .next (raise .errKeyLen s)) ∨
    (∃ b : Block, allIdle s = true ∧ data = b.toList ∧
      execKeyexp data s = .next (start keyexpEntry b (setKeyValid false s))) := by
  cases hc : allIdle s
  · exact .inl ⟨rfl, by simp [execKeyexp, hc]⟩
  · cases hb : blockOfBytes? data with
    | none => exact .inr (.inl ⟨rfl, blockOfBytes?_none.1 hb, by simp [execKeyexp, hc, hb]⟩)
    | some b =>
      exact .inr (.inr ⟨b, rfl, (blockOfBytes?_some.1 hb).2, by simp [execKeyexp, hc, hb]⟩)

/-- Taking the presented request off the port changes nothing that acceptance looks at (R274, R275). -/
@[simp] theorem canAccept_takeRequest (cmd : Byte) (s : State) : canAccept cmd (takeRequest s) = canAccept cmd s := by
  simp [canAccept, allIdle, laneOpen, State.lanes, takeRequest, Lane.runsKeyexp]

/-- Everything the step of an idle lane can do: it waits; or it accepts the presented request, takes it, and answers it
with an error, or starts a key expansion, or, under a valid schedule, a block transform (R201, R252, R274, R275). -/
theorem hostStep_cases (s : State) :
    hostStep s = .next s ∨
    ∃ req more, s.lane.port = req :: more ∧ canAccept req.cmd s = true ∧
      ((∃ e, hostStep s = .next (raise e (takeRequest s))) ∨
       (∃ b : Block, req.cmd = 0x01 ∧ req.data = b.toList ∧
          hostStep s = .next (start keyexpEntry b (setKeyValid false (takeRequest s)))) ∨
       (∃ (b : Block) (entry : BitVec 7), req.data = b.toList ∧ s.keyValid = true ∧
          (req.cmd = 0x02 ∧ entry = encEntry ∨ req.cmd = 0x03 ∧ entry = decEntry) ∧
          hostStep s = .next (start entry b (takeRequest s)))) := by
  cases hp : s.lane.port with
  | nil => exact .inl (by simp [hostStep, hp])
  | cons req more =>
    cases hc : canAccept req.cmd s with
    | false => exact .inl (by simp [hostStep, hp, hc])
    | true =>
      refine .inr ⟨req, more, rfl, hc, ?_⟩
      have accepted (i : Instr) (hd : decodeH req.cmd req.data = .ok i) : hostStep s = exec i (takeRequest s) := by
        simp [hostStep, hp, hc, hd]
      by_cases h1 : req.cmd = 0x01
      · have hx : hostStep s = execKeyexp req.data (takeRequest s) := accepted (.keyexp _) (by rw [h1]; rfl)
        have hi : allIdle (takeRequest s) = true := by
          rw [← canAccept_keyexp, canAccept_takeRequest, show 1#8 = req.cmd from h1.symm, hc]
        have := execKeyexp_cases req.data (takeRequest s)
        rw [← hx, hi] at this
        rcases this with ⟨h, _⟩ | ⟨_, _, h⟩ | ⟨b, _, hb, h⟩
        · cases h
        · exact .inl ⟨_, h⟩
        · exact .inr (.inl ⟨b, h1, hb, h⟩)
      · by_cases h23 : req.cmd = 0x02 ∨ req.cmd = 0x03
        · obtain ⟨entry, he, hx⟩ : ∃ entry : BitVec 7,
              (req.cmd = 0x02 ∧ entry = encEntry ∨ req.cmd = 0x03 ∧ entry = decEntry) ∧
              hostStep s = blockCommand req.cmd entry req.data (takeRequest s) := by
            rcases h23 with h | h
            · exact ⟨encEntry, .inl ⟨h, rfl⟩, by rw [accepted (.enc _) (by rw [h]; rfl), h]; rfl⟩
            · exact ⟨decEntry, .inr ⟨h, rfl⟩, by rw [accepted (.dec _) (by rw [h]; rfl), h]; rfl⟩
          have := blockCommand_cases req.cmd entry req.data (takeRequest s)
          rw [← hx, canAccept_takeRequest, hc] at this
          rcases this with ⟨h, _⟩ | ⟨_, _, h⟩ | ⟨_, _, _, h⟩ | ⟨b, _, hb, hk, h⟩
          · cases h
          · exact .inl ⟨_, h⟩
          · exact .inl ⟨_, h⟩
          · exact .inr (.inr ⟨b, entry, hb, hk, he, h⟩)
        · have hd : decodeH req.cmd req.data = .error (.reservedCommand req.cmd) := by
            simp only [not_or] at h23
            rw [decodeH, if_neg h1, if_neg h23.1, if_neg h23.2]
          exact .inl ⟨.errCmd, by simp [hostStep, hp, hc, hd]⟩

/-! ## The sequencer -/

/-- Everything the end of a micro-step can do (R205). -/
theorem complete_next {e : Ending} {s t : State} :
    complete e s = .next t ↔
      (e = .none ∧ t = s) ∨
      (e = .block ∧ ∃ b, s.lane.dout = .holds b ∧ t = respond .ok b.toList (goIdle s)) ∨
      (e = .schedule ∧ t = respond .ok [] (goIdle (setKeyValid true s))) := by
  cases e with
  | none => simp [complete, eq_comm]
  | block =>
    simp only [complete, withValue_next, Host.Outcome.next.injEq, reduceCtorEq, false_and, true_and, or_false, false_or]
    exact exists_congr fun b => and_congr value?_eq_some eq_comm
  | schedule => simp [complete, eq_comm]

/-- When a micro-step gives a next state, and which: fetch, decode, execute, complete (R204). -/
theorem microStep_next {s t : State} :
    microStep s = .next t ↔ ∃ i u, decodeU (fetch s.lane.upc) = .ok i ∧ exec i s = .next u ∧
      complete (ending i) u = .next t := by
  unfold microStep
  cases hd : decodeU (fetch s.lane.upc) with
  | error r => simp
  | ok i =>
    simp only [microExec, Except.ok.injEq, exists_and_left, exists_eq_left']
    cases he : exec i s with
    | next u => simp
    | fault f => simp
    | refused r => simp

/-- Every entry of the micro-program decodes to a well-formed micro-operation (R88, R203). -/
theorem fetch_decodes (upc : BitVec 7) :
    ∃ i, decodeU (fetch upc) = .ok i ∧ i.wellFormed = true ∧ i.format = .U := by
  have h : ∀ upc : BitVec 7, (decodeU (fetch upc)).toOption.any (fun i => i.wellFormed && decide (i.format = .U)) = true := by
    decide
  have hu := h upc
  cases hd : decodeU (fetch upc) with
  | error r => rw [hd] at hu; cases hu
  | ok i =>
    rw [hd] at hu
    exact ⟨i, rfl, by simpa [Except.toOption] using hu⟩

/-! ## Which lane moves -/

/-- Moving the turn reorders nothing: the lanes are the same (R34). -/
@[simp] theorem focus_lanes (k : Nat) (s : State) : (focus k s).lanes = s.lanes := by
  unfold focus
  split
  · rename_i l above h
    simp only [State.lanes] at h ⊢
    rw [← h, List.take_append_drop]
  · rfl

@[simp] theorem focus_w (k : Nat) (s : State) : (focus k s).w = s.w := by unfold focus; split <;> rfl
@[simp] theorem focus_keyValid (k : Nat) (s : State) : (focus k s).keyValid = s.keyValid := by
  unfold focus; split <;> rfl
@[simp] theorem focus_schedule (k : Nat) (s : State) : (focus k s).schedule = s.schedule := by
  unfold focus; split <;> rfl

/-- The lane that moves after the turn is given to lane `k` is lane `k`. -/
theorem focus_lane {k : Nat} {s : State} {l : Lane} (h : s.lanes[k]? = some l) : (focus k s).lane = l := by
  unfold focus
  split
  · rename_i l' above hd
    have : (s.lanes.drop k)[0]? = some l := by simpa using h
    rw [hd] at this
    simpa using this
  · rename_i hd
    have : (s.lanes.drop k)[0]? = some l := by simpa using h
    rw [hd] at this
    cases this

/-- Giving the turn to the lane that has it changes nothing. -/
@[simp] theorem focus_self (s : State) : focus s.laneNo s = s := by
  unfold focus
  simp [State.lanes, State.laneNo]

@[simp] theorem focusNext_lanes (s : State) : (focusNext s).lanes = s.lanes := focus_lanes _ _
@[simp] theorem focusNext_w (s : State) : (focusNext s).w = s.w := focus_w _ _
@[simp] theorem focusNext_keyValid (s : State) : (focusNext s).keyValid = s.keyValid := focus_keyValid _ _
@[simp] theorem focusNext_schedule (s : State) : (focusNext s).schedule = s.schedule := focus_schedule _ _

/-- The place of the lane that moves, after the turn is given to a lane there is, is that lane's. -/
theorem focus_laneNo {k : Nat} {s : State} (h : k < s.lanes.length) : (focus k s).laneNo = k := by
  unfold focus
  split
  · simp only [State.laneNo, List.length_take]; omega
  · rename_i hd
    have := List.drop_eq_nil_iff.1 hd
    omega

/-- With one lane the turn is always its own (R34). -/
theorem focusNext_single {s : State} (hl : s.lower = []) (hu : s.upper = []) : focusNext s = s := by
  have h : (s.laneNo + 1) % s.lanes.length = s.laneNo := by simp [State.laneNo, State.lanes, hl, hu]
  rw [focusNext, h, focus_self]

/-! ## The engine's step -/

/-- Resetting lanes goes lane by lane, each by its number. -/
theorem resetLanesFrom_append (n : Nat) (a b : List Lane) :
    resetLanesFrom n (a ++ b) = resetLanesFrom n a ++ resetLanesFrom (n + a.length) b := by
  induction a generalizing n with
  | nil => rfl
  | cons l ls ih => simp [resetLanesFrom, ih, Nat.add_assoc, Nat.add_comm 1]

/-- Every lane that was reset is a lane at its values after reset, but for its port and its responses. -/
theorem mem_resetLanesFrom {n : Nat} {ls : List Lane} {l : Lane} (h : l ∈ resetLanesFrom n ls) :
    ∃ (k : Nat) (a : Lane), l = resetLane k a := by
  induction ls generalizing n with
  | nil => cases h
  | cons a as ih =>
    rcases List.mem_cons.1 h with h | h
    · exact ⟨n, a, h⟩
    · exact ih h

/-- A reset event resets all lanes, together (R270). -/
theorem resetEngine_lanes (s : State) : (resetEngine s).lanes = resetLanesFrom 0 s.lanes := by
  simp only [State.lanes, resetLanesFrom_append, Nat.zero_add]
  rfl

/-- After a reset event every lane is idle (R270). -/
theorem resetEngine_idle (s : State) : ∀ l ∈ (resetEngine s).lanes, l.busy = false := by
  intro l h
  rw [resetEngine_lanes] at h
  obtain ⟨k, a, rfl⟩ := mem_resetLanesFrom h
  rfl

/-- Everything a step of the engine can do: a reset event; or the turn of one lane, in a state with the same lanes and
the same shared elements (R211, R270). -/
theorem step_cases (s : State) :
    (∃ rest, s.schedule = .reset :: rest ∧ step s = .next (resetEngine { s with schedule := rest })) ∨
    (∃ u, step s = laneStep u ∧ u.lanes = s.lanes ∧ u.w = s.w ∧ u.keyValid = s.keyValid ∧
      u.schedule = s.schedule.tail) := by
  cases hs : s.schedule with
  | nil => exact .inr ⟨focusNext s, by simp [step, engineStep, hs], by simp [hs]⟩
  | cons e rest =>
    cases e with
    | reset => exact .inl ⟨rest, rfl, by simp [step, engineStep, hs]⟩
    | turn k => exact .inr ⟨focus k { s with schedule := rest }, by simp [step, engineStep, hs],
        focus_lanes _ _, by simp⟩

end Sys2Proof.Machine
end

