-- ==== Sys2Proof/Laws/PerInstr.lean ====
section
/-! SUPPORT. Statements made instruction by instruction: the word of every operation matches its row of the opcode map
(rule R94). -/

namespace Sys2Proof.Laws.WordMatchesRow

/-- The encoding of a well-formed operation, masked, is its row's match value, and the row is one of its code space's
rows (R94). -/
def Statement (i : Instr) : Prop :=
  i.wellFormed = true →
    encode i &&& i.row.mask = i.row.matched ∧
      i.row ∈ (match i.format with | .H => hostRows | .U => microRows)

theorem keyexp (data : List Byte) : Statement (.keyexp data) := fun _ =>
  ⟨show (0x01 : Byte) &&& 0xFF = 0x01 by decide, .head _⟩
theorem enc (data : List Byte) : Statement (.enc data) := fun _ =>
  ⟨show (0x02 : Byte) &&& 0xFF = 0x02 by decide, .tail _ (.head _)⟩
theorem dec (data : List Byte) : Statement (.dec data) := fun _ =>
  ⟨show (0x03 : Byte) &&& 0xFF = 0x03 by decide, .tail _ (.tail _ (.head _))⟩
theorem ldst : Statement .ldst := fun _ => by decide
theorem stst : Statement .stst := fun _ => by decide
theorem sub : Statement .sub := fun _ => by decide
theorem shr : Statement .shr := fun _ => by decide
theorem mix : Statement .mix := fun _ => by decide
theorem isub : Statement .isub := fun _ => by decide
theorem ishr : Statement .ishr := fun _ => by decide
theorem imix : Statement .imix := fun _ => by decide

theorem ark (r : BitVec 4) : Statement (.ark r) := fun _ =>
  ⟨(show ∀ r : BitVec 4, encode (.ark r) &&& 0xF0 = 0x40 by decide) r,
   show (⟨.U, "ARK", 0x40, 0xF0⟩ : OpcodeRow) ∈ microRows by decide⟩

theorem kxw (i : BitVec 6) : Statement (.kxw i) := fun _ =>
  ⟨(show ∀ i : BitVec 6, encode (.kxw i) &&& 0xC0 = 0x80 by decide) i,
   show (⟨.U, "KXW", 0x80, 0xC0⟩ : OpcodeRow) ∈ microRows by decide⟩

end Sys2Proof.Laws.WordMatchesRow
end

