-- ==== Sys2Proof/Laws/Values.lean ====
section
/-! SUPPORT. NoValueRead and BadMicroOp are unreachable, proved as an invariant (rules R249, R272, R279): from a state in
which what the running lanes will read has been written, every step gives a next state of the same kind; the state after
reset is one, whatever the host presents and whichever lanes move. -/

namespace Sys2Proof.Machine

/-! ## What the micro-program holds at an entry -/

/-- Whether `i` may stand at entry `upc`: LDST first and STST last in the two block sequences, State operations between,
`KXW upc-84` after them (R203). -/
def fitsEntry (upc : BitVec 7) : Instr → Bool
  | .ldst => upc == 0 || upc == 42
  | .stst => upc == 41 || upc == 83
  | .ark r => decide (r.toNat ≤ 10) && inRound upc
  | .kxw i => decide (upc.toNat = 84 + i.toNat ∧ i.toNat < 44)
  | .sub => inRound upc
  | .shr => inRound upc
  | .mix => inRound upc
  | .isub => inRound upc
  | .ishr => inRound upc
  | .imix => inRound upc
  | .keyexp _ => false
  | .enc _ => false
  | .dec _ => false
where
  /-- An entry between the LDST and the STST of a block sequence. -/
  inRound (upc : BitVec 7) : Bool :=
    decide (upc.toNat < 84) && upc != 0 && upc != 41 && upc != 42 && upc != 83

/-- Every entry of the micro-program decodes to a micro-operation that fits it (R203). -/
theorem fetch_fitsEntry (upc : BitVec 7) : ∃ i, decodeU (fetch upc) = .ok i ∧ fitsEntry upc i = true := by
  have h : ∀ upc : BitVec 7, (decodeU (fetch upc)).toOption.any (fitsEntry upc) = true := by decide
  have hu := h upc
  cases hd : decodeU (fetch upc) with
  | error r => rw [hd] at hu; cases hu
  | ok i => rw [hd] at hu; exact ⟨i, rfl, by simpa [Except.toOption] using hu⟩

/-! ## Operations whose operands hold values -/

/-- A round key of a schedule that holds values can be read (R25). -/
theorem readRoundKey_isSome {r : Nat} {s : State} (hr : r ≤ 10) (hw : AllWordsHeld s.w) :
    ∃ k, readRoundKey r s = some k := by
  have word (c : Fin 4) : ∃ v, readW (4 * r + c.val) s = some v := by
    rw [readW_lt (by omega)]
    exact Option.isSome_iff_exists.1 (hw ⟨4 * r + c.val, by omega⟩)
  choose v hv using word
  exact ⟨Vector.ofFn v, readRoundKey_some.2 fun c => by simpa using hv c⟩

/-- `KXW i` finds a value for `W[i]` when DIN and the words before `i` hold values (R184). -/
theorem kxwWord_isSome {i : Nat} {s : State} (hi : i < 44) (hd : s.lane.din.value?.isSome = true)
    (hw : ∀ n : Fin 44, n.val < i → s.w[n].value?.isSome = true) : ∃ v, kxwWord i s = some v := by
  unfold kxwWord Config.keyStride
  split
  · obtain ⟨b, hb⟩ := Option.isSome_iff_exists.1 hd
    exact ⟨_, by rw [hb]; rfl⟩
  · obtain ⟨p, hp⟩ := Option.isSome_iff_exists.1 (hw ⟨i - 1, by omega⟩ (by simp; omega))
    obtain ⟨q, hq⟩ := Option.isSome_iff_exists.1 (hw ⟨i - 4, by omega⟩ (by simp; omega))
    rw [readW_lt (by omega), readW_lt (by omega)]
    simp only [Fin.getElem_fin] at hp hq
    exact ⟨_, by rw [hp, hq]⟩

/-! ## A lane's step -/

/-- What a lane's step leaves for the other lanes: they are untouched, and no word of `W` loses its value. -/
structure KeepsOthers (s t : State) : Prop where
  lower : t.lower = s.lower
  upper : t.upper = s.upper
  words : ∀ n : Fin 44, s.w[n].value?.isSome = true → t.w[n].value?.isSome = true

/-- A step of the moving lane that keeps what it and the others read. -/
def LaneStepHeld (s t : State) : Prop :=
  KeepsOthers s t ∧ (t.keyValid = true → AllWordsHeld t.w) ∧ t.lane.ReadsHeld t.w

/-- A lane that is not busy reads nothing. -/
theorem readsHeld_idle {w : Vector (Content Word) 44} {l : Lane} (h : l.busy = false) : l.ReadsHeld w := by
  constructor <;> simp [h]

/-- Words gaining values keep a lane's reads. -/
theorem Lane.ReadsHeld.mono {w w' : Vector (Content Word) 44} {l : Lane} (h : l.ReadsHeld w)
    (hw : ∀ n : Fin 44, w[n].value?.isSome = true → w'[n].value?.isSome = true) : l.ReadsHeld w' :=
  ⟨h.din, h.grid, fun hb hu n => hw n (h.words hb hu n), fun hb n hn => hw n (h.built hb n hn)⟩

/-- Writing the State in a block sequence, before its STST, keeps what the lanes read (R150). -/
theorem advance_writeGrid_held {s : State} (g : Grid) (hb : s.lane.busy = true) (hu : s.lane.upc.toNat < 83)
    (hv : s.keyValid = true → AllWordsHeld s.w) (hl : s.lane.ReadsHeld s.w) :
    LaneStepHeld s (advance (writeGrid g s)) := by
  refine ⟨⟨rfl, rfl, fun n h => h⟩, hv, ⟨hl.din, fun _ _ _ _ => rfl, fun _ _ => hl.words hb (by omega), ?_⟩⟩
  intro _ n hn
  have : (s.lane.upc + 1).toNat = s.lane.upc.toNat + 1 := by simp [BitVec.toNat_add]; omega
  simp only [advance_lane_upc, writeGrid_lane_upc, this] at hn
  omega

/-- A State-to-State micro-operation in its place gives a next state, and keeps what the lanes read (R150, R272). -/
theorem transform_held {s : State} (f : Grid → Grid) (hb : s.lane.busy = true)
    (hu : fitsEntry.inRound s.lane.upc = true)
    (hv : s.keyValid = true → AllWordsHeld s.w) (hl : s.lane.ReadsHeld s.w) :
    ∃ t, transform f s = .next t ∧ LaneStepHeld s t := by
  simp only [fitsEntry.inRound, Bool.and_eq_true, decide_eq_true_eq, bne_iff_ne] at hu
  obtain ⟨⟨⟨⟨h84, h0⟩, h41⟩, h42⟩, h83⟩ := hu
  obtain ⟨g, hg⟩ := Option.isSome_iff_exists.1 (hl.grid hb h84 h0 h42)
  have : s.lane.upc.toNat ≠ 83 := fun h => h83 (BitVec.eq_of_toNat_eq h)
  exact ⟨_, transform_next.2 ⟨g, value?_eq_some.1 hg, rfl⟩, advance_writeGrid_held _ hb (by omega) hv hl⟩

/-- `KXW i` in its place writes `W[i]`, and keeps what the lanes read; at 43 it leaves every word with a value (R184,
R272). -/
theorem writeW_held {s : State} {i : Nat} (v : Word) (hb : s.lane.busy = true) (hu : s.lane.upc.toNat = 84 + i)
    (hl : s.lane.ReadsHeld s.w) :
    (∀ n : Fin 44, s.w[n].value?.isSome = true → (writeW i v s).w[n].value?.isSome = true) ∧
    ∀ n : Fin 44, n.val < i + 1 → (writeW i v s).w[n].value?.isSome = true := by
  have hw (n : Fin 44) : (writeW i v s).w[n] = if i = n.val then .holds v else s.w[n] := by
    simp [Vector.getElem_setIfInBounds]
  refine ⟨fun n h => ?_, fun n h => ?_⟩
  · rw [hw]; split
    · rfl
    · exact h
  · rw [hw]; split
    · rfl
    · exact hl.built hb n (by omega)

/-- A busy lane with what it reads written has its micro-step, and the step keeps that of every lane (R272, R279). -/
theorem microStep_held {s : State} (hb : s.lane.busy = true) (hv : s.keyValid = true → AllWordsHeld s.w)
    (hl : s.lane.ReadsHeld s.w) : ∃ t, microStep s = .next t ∧ LaneStepHeld s t := by
  obtain ⟨i, hd, hf⟩ := fetch_fitsEntry s.lane.upc
  -- an operation that ends nothing: its own next state is the micro-step's
  have plain (u : State) (he : exec i s = .next u) (hn : ending i = .none) (hu : LaneStepHeld s u) :
      ∃ t, microStep s = .next t ∧ LaneStepHeld s t :=
    ⟨u, microStep_next.2 ⟨i, u, hd, he, by rw [hn]; rfl⟩, hu⟩
  have inTransform (f : Grid → Grid) (he : exec i s = transform f s) (hn : ending i = .none)
      (hr : fitsEntry.inRound s.lane.upc = true) : ∃ t, microStep s = .next t ∧ LaneStepHeld s t := by
    obtain ⟨u, hu, hk⟩ := transform_held f hb hr hv hl
    exact plain u (he.trans hu) hn hk
  cases i with
  | keyexp _ => cases hf
  | enc _ => cases hf
  | dec _ => cases hf
  | sub => exact inTransform subGrid rfl rfl hf
  | shr => exact inTransform shrGrid rfl rfl hf
  | mix => exact inTransform mixGrid rfl rfl hf
  | isub => exact inTransform isubGrid rfl rfl hf
  | ishr => exact inTransform ishrGrid rfl rfl hf
  | imix => exact inTransform imixGrid rfl rfl hf
  | ldst =>
    obtain ⟨b, hb'⟩ := Option.isSome_iff_exists.1 (hl.din hb)
    have hu : s.lane.upc.toNat < 83 := by
      simp only [fitsEntry, Bool.or_eq_true, beq_iff_eq] at hf
      rcases hf with h | h <;> simp [h]
    exact plain _ (by simp [exec, execLdst, hb']) rfl (advance_writeGrid_held (gridOfBlock b) hb hu hv hl)
  | stst =>
    have hu : s.lane.upc.toNat < 84 ∧ s.lane.upc ≠ 0 ∧ s.lane.upc ≠ 42 := by
      simp only [fitsEntry, Bool.or_eq_true, beq_iff_eq] at hf
      rcases hf with h | h <;> simp [h]
    obtain ⟨g, hg⟩ := Option.isSome_iff_exists.1 (hl.grid hb hu.1 hu.2.1 hu.2.2)
    refine ⟨_, microStep_next.2 ⟨.stst, _, hd, by simp [exec, execStst, hg]; rfl, rfl⟩, ?_⟩
    exact ⟨⟨rfl, rfl, fun n h => h⟩, hv, readsHeld_idle rfl⟩
  | ark r =>
    simp only [fitsEntry, Bool.and_eq_true, decide_eq_true_eq] at hf
    have h84 : s.lane.upc.toNat < 84 := by
      have := hf.2
      simp only [fitsEntry.inRound, Bool.and_eq_true, decide_eq_true_eq] at this
      exact this.1.1.1.1
    obtain ⟨k, hk⟩ := readRoundKey_isSome hf.1 (hl.words hb h84)
    exact inTransform (arkGrid k) (by simp [exec, execArk, Config.rounds, hf.1, hk]) rfl hf.2
  | kxw n =>
    simp only [fitsEntry, decide_eq_true_eq] at hf
    obtain ⟨hu, hn⟩ := hf
    obtain ⟨v, hk⟩ := kxwWord_isSome hn (hl.din hb) fun m hm => hl.built hb m (by omega)
    have he : exec (.kxw n) s = .next (advance (writeW n.toNat v s)) := execKxw_next.2 ⟨hn, v, hk, rfl⟩
    obtain ⟨hkeep, hup⟩ := writeW_held v hb hu hl
    by_cases h43 : n = 43
    · subst h43
      refine ⟨_, microStep_next.2 ⟨_, _, hd, he, rfl⟩, ⟨rfl, rfl, hkeep⟩, fun _ m => hup m ?_, readsHeld_idle rfl⟩
      exact m.isLt
    · have hne : n.toNat ≠ 43 := fun h => h43 (BitVec.eq_of_toNat_eq h)
      have h1 : (s.lane.upc + 1).toNat = s.lane.upc.toNat + 1 := by simp [BitVec.toNat_add]; omega
      refine plain _ he (if_neg h43) ⟨⟨rfl, rfl, hkeep⟩, fun h m => hkeep m (hv h m), hl.din, ?_, ?_, ?_⟩
      · intro _ h; simp only [advance_lane_upc, writeW_lane_upc, h1] at h; omega
      · intro _ h; simp only [advance_lane_upc, writeW_lane_upc, h1] at h; omega
      · intro _ m h; simp only [advance_lane_upc, writeW_lane_upc, h1] at h; exact hup m (by omega)

/-- The step of an idle lane always gives a next state, and keeps what the lanes read: it reads nothing but its port, and
a block transform starts only under a valid schedule (R201, R272). -/
theorem hostStep_held {s : State} (hb : s.lane.busy = false) (hv : s.keyValid = true → AllWordsHeld s.w) :
    ∃ t, hostStep s = .next t ∧ LaneStepHeld s t := by
  obtain h | ⟨req, more, -, -, ⟨e, h⟩ | ⟨b, -, -, h⟩ | ⟨b, entry, -, hk, he, h⟩⟩ := hostStep_cases s
  · exact ⟨s, h, ⟨rfl, rfl, fun _ h => h⟩, hv, readsHeld_idle hb⟩
  · exact ⟨_, h, ⟨rfl, rfl, fun _ h => h⟩, hv, readsHeld_idle hb⟩
  · refine ⟨_, h, ⟨rfl, rfl, fun _ h => h⟩, fun h => Bool.noConfusion h, ⟨fun _ => rfl, ?_, ?_, ?_⟩⟩ <;>
      simp [start, keyexpEntry]
  · refine ⟨_, h, ⟨rfl, rfl, fun _ h => h⟩, hv, ⟨fun _ => rfl, ?_, fun _ _ => hv hk, ?_⟩⟩
    · intro _ _ h0 h42
      rcases he with ⟨-, rfl⟩ | ⟨-, rfl⟩
      · exact absurd rfl h0
      · exact absurd rfl h42
    · intro _ n hn
      rcases he with ⟨-, rfl⟩ | ⟨-, rfl⟩ <;> cases hn

/-! ## The engine's step -/

/-- The moving lane's step gives a next state and keeps what every lane reads (R272, R279). -/
theorem laneStep_held {s : State} (h : ValuesHeld s) : ∃ t, laneStep s = .next t ∧ ValuesHeld t := by
  have own : s.lane.ReadsHeld s.w := h.lanes _ (by simp [State.lanes])
  have moves : ∃ t, laneStep s = .next t ∧ LaneStepHeld s t := by
    unfold laneStep
    cases hb : s.lane.busy with
    | true => exact microStep_held hb h.valid own
    | false => exact hostStep_held hb h.valid
  obtain ⟨t, ht, hk, hv, hl⟩ := moves
  refine ⟨t, ht, hv, fun l hm => ?_⟩
  simp only [State.lanes, hk.lower, hk.upper, List.mem_append, List.mem_cons] at hm
  rcases hm with hm | rfl | hm
  · exact (h.lanes l (by simp [State.lanes, hm])).mono hk.words
  · exact hl
  · exact (h.lanes l (by simp [State.lanes, hm])).mono hk.words

/-- A state with every lane idle and KEY_VALID 0 reads nothing: the state after reset is one, whatever requests the host
presents and whatever the schedule (R270). -/
theorem valuesHeld_idle {s : State} (hk : s.keyValid = false) (hl : ∀ l ∈ s.lanes, l.busy = false) : ValuesHeld s :=
  ⟨fun h => Bool.noConfusion (hk.symm.trans h), fun l hm => readsHeld_idle (hl l hm)⟩

/-- Every step gives a next state, and keeps the invariant (R249, R272, R279). -/
theorem step_held {s : State} (h : ValuesHeld s) : ∃ t, step s = .next t ∧ ValuesHeld t := by
  obtain ⟨rest, -, hs⟩ | ⟨u, hs, hl, hw, hk, -⟩ := step_cases s
  · exact ⟨_, hs, valuesHeld_idle rfl (resetEngine_idle _)⟩
  · obtain ⟨t, ht, hh⟩ := laneStep_held (s := u) ⟨by rw [hk, hw]; exact h.valid, by rw [hl, hw]; exact h.lanes⟩
    exact ⟨t, hs.trans ht, hh⟩

/-- A run never stops (R249, R272). -/
theorem run_held {s : State} (h : ValuesHeld s) (n : Nat) : ∃ t, run n s = .next t ∧ ValuesHeld t := by
  induction n generalizing s with
  | zero => exact ⟨s, rfl, h⟩
  | succ n ih =>
    obtain ⟨u, hu, hh⟩ := step_held h
    obtain ⟨t, ht, hv⟩ := ih hh
    exact ⟨t, by rw [run, hu]; exact ht, hv⟩

/-- No run from reset reaches NoValueRead or BadMicroOp: with any number of lanes at their reset values, whatever
requests the host presents to each, whichever lanes move and whenever reset events come, every number of steps gives a
next state (R272). -/
theorem run_from_reset_never_stops (m : Nat) (lower upper : List Lane) (lane : Lane) (events : List Event)
    (h : ∀ l ∈ lower ++ lane :: upper, ∃ k a, l = resetLane k a) (n : Nat) :
    ∃ t, run n { State.resetLanes m with lower := lower, lane := lane, upper := upper, schedule := events } = .next t := by
  obtain ⟨t, ht, -⟩ := run_held (valuesHeld_idle (s := { State.resetLanes m with
    lower := lower, lane := lane, upper := upper, schedule := events }) rfl fun l hl => by
      obtain ⟨k, a, rfl⟩ := h l hl; rfl) n
  exact ⟨t, ht⟩

end Sys2Proof.Machine
end

