-- ==== Sys2Proof/Tests/Slice0.lean ====
section
/-! SUPPORT. Small tests of one step or one function, with expected results from the spec's own tables (95_test_vectors.md and
the examples in the rules), and for every statement with hypotheses a witness that meets them. -/

namespace Sys2Proof.Tests

open Sys2Proof.Machine

/-! ## Helpers -/

/-- A block from a list of 16 Bytes. -/
def blk (l : List Byte) : Block := blockOf fun n => l.getD n.val 0

/-- A word from a list of 4 Bytes. -/
def wrd (l : List Byte) : Word := wordOf fun j => l.getD j.val 0

/-- The State after a step as the Bytes it would extract to. -/
def gridAfter : Result → Option (List Byte)
  | .next t => t.lane.grid.value?.map fun g => (blockOfGrid g).toList
  | .fault _ => none
  | .refused _ => none

/-- DOUT after a step. -/
def doutAfter : Result → Option (List Byte)
  | .next t => t.lane.dout.value?.map fun b => b.toList
  | .fault _ => none
  | .refused _ => none

/-- Word `n` of W after a step. -/
def wordAfter (n : Nat) : Result → Option (List Byte)
  | .next t => (readW n t).map fun v => v.toList
  | .fault _ => none
  | .refused _ => none

/-- The responses after a step, with KEY_VALID, BUSY and UPC. -/
def controlAfter : Result → Option (List (Byte × List Byte) × Bool × Bool × BitVec 7)
  | .next t => some (t.lane.resp.map fun r => (r.status.code, r.out), t.keyValid, t.lane.busy, t.lane.upc)
  | .fault _ => none
  | .refused _ => none

/-- The fault of a step. -/
def faultOf : Result → Option Fault
  | .next _ => none
  | .fault f => some f
  | .refused _ => none

/-- State A of 95_test_vectors.md section 2.4. -/
def blockA : Block := blk [0x00, 0x01, 0x02, 0x03, 0x04, 0x05, 0x06, 0x07, 0x08, 0x09, 0x0a, 0x0b, 0x0c, 0x0d, 0x0e, 0x0f]

/-- State D of 95_test_vectors.md section 2.4. -/
def blockD : Block := blk [0x19, 0x3d, 0xe3, 0xbe, 0xa0, 0xf4, 0xe2, 0x2b, 0x9a, 0xc6, 0x8d, 0x2a, 0xe9, 0xf8, 0x48, 0x08]

/-- The first words of the schedule of key 2b7e151628aed2a6abf7158809cf4f3c (43_key_schedule.md rule R187). -/
def k2Words : List Word :=
  [wrd [0x2b, 0x7e, 0x15, 0x16], wrd [0x28, 0xae, 0xd2, 0xa6], wrd [0xab, 0xf7, 0x15, 0x88],
   wrd [0x09, 0xcf, 0x4f, 0x3c], wrd [0xa0, 0xfa, 0xfe, 0x17], wrd [0x88, 0x54, 0x2c, 0xb1],
   wrd [0x23, 0xa3, 0x39, 0x39], wrd [0x2a, 0x6c, 0x76, 0x05]]

/-- A schedule that begins with `k2Words`. -/
def k2Schedule : KeyWords := Vector.ofFn fun n => k2Words.getD n.val (wrd [])

/-- One lane whose State and DIN hold `b`, under `k2Schedule`. -/
def holding (b : Block) : State where
  w        := Vector.ofFn fun n : Fin 44 => .holds k2Schedule[n]
  keyValid := true
  lower    := []
  lane     := { Lane.resetAt 0 with grid := .holds (gridOfBlock b), din := .holds b }
  upper    := []
  schedule := []

/-- One idle lane with `reqs` presented, KEY_VALID as given. -/
def presented (kv : Bool) (reqs : List Request) : State :=
  { holding blockA with keyValid := kv, lane := { Lane.resetAt 0 with port := reqs } }

/-! ## WellFormed: each check refuses an ill-formed term -/

theorem test_wellFormed_ark_bound : (Instr.ark 10).wellFormed = true ∧ (Instr.ark 11).wellFormed = false := by decide
theorem test_wellFormed_kxw_bound : (Instr.kxw 43).wellFormed = true ∧ (Instr.kxw 44).wellFormed = false := by decide

/-! ## Decoding: every row by a word written out bit by bit (30_encoding.md rules R82, R85 to R87, R94) -/

theorem test_decode_keyexp : decodeH 0b00000001 [1, 2] = .ok (.keyexp [1, 2]) := by decide
theorem test_decode_enc : decodeH 0b00000010 [1, 2] = .ok (.enc [1, 2]) := by decide
theorem test_decode_dec : decodeH 0b00000011 [1, 2] = .ok (.dec [1, 2]) := by decide
theorem test_decode_ldst : decodeU 0b00000001 = .ok .ldst := by decide
theorem test_decode_stst : decodeU 0b00000010 = .ok .stst := by decide
theorem test_decode_sub : decodeU 0b00000011 = .ok .sub := by decide
theorem test_decode_shr : decodeU 0b00000100 = .ok .shr := by decide
theorem test_decode_mix : decodeU 0b00000101 = .ok .mix := by decide
theorem test_decode_isub : decodeU 0b00000110 = .ok .isub := by decide
theorem test_decode_ishr : decodeU 0b00000111 = .ok .ishr := by decide
theorem test_decode_imix : decodeU 0b00001000 = .ok .imix := by decide
theorem test_decode_ark : decodeU 0b01000111 = .ok (.ark 7) ∧ decodeU 0b01001010 = .ok (.ark 10) := by decide
theorem test_decode_kxw : decodeU 0b10010011 = .ok (.kxw 19) ∧ decodeU 0b10101011 = .ok (.kxw 43) := by decide
theorem test_decode_reserved_microOps : [0x00, 0x09, 0x3F, 0x4B, 0x50, 0x7F, 0xAC, 0xBF, 0xC0, 0xFF].all
    (fun w : Byte => decide (decodeU w = .error (.reservedMicroOp w))) = true := by decide
theorem test_decode_reserved_commands : [0x00, 0x04, 0x7F, 0xFF].all
    (fun c : Byte => decide (decodeH c [] = .error (.reservedCommand c))) = true := by decide

/-! ## Function units (95_test_vectors.md sections 2.1, 2.2, 2.4, 2.5) -/

theorem test_xtime_reduction : xtime 0x80 = 0x1B ∧ xtime 0x8D = 0x01 ∧ xtime 0x7F = 0xFE := by decide
theorem test_gfmul_classic : gfmul 0x57 0x83 = 0xC1 ∧ gfmul 0x57 0x13 = 0xFE ∧ gfmul 0xFF 0xFF = 0x13 := by decide
theorem test_tables : sbox 0x53 = 0xED ∧ sbox 0xFF = 0x16 ∧ isbox 0x00 = 0x52 ∧ isbox 0xED = 0x53 := by decide
theorem test_rcon : rcon 1 = 0x01 ∧ rcon 9 = 0x1B ∧ rcon 10 = 0x36 := by decide
theorem test_mixcol_forward : mixcol mixM (wrd [0xdb, 0x13, 0x53, 0x45]) = wrd [0x8e, 0x4d, 0xa1, 0xbc] := by decide
theorem test_mixcol_inverse : mixcol imixM (wrd [0x2d, 0x26, 0x31, 0x4c]) = wrd [0xa0, 0x50, 0x50, 0xd6] := by decide
theorem test_g : gWord (wrd [0x09, 0xcf, 0x4f, 0x3c]) 1 = wrd [0x8b, 0x84, 0xeb, 0x01] ∧
    gWord (wrd [0x01, 0x02, 0x03, 0x04]) 9 = wrd [0x6c, 0x7b, 0xf2, 0x7c] := by decide

/-! ## Micro-operations on States A and D (95_test_vectors.md sections 2.4, 2.5) -/

/-- Row 1 of the loaded State is 01 05 09 0d (R151). -/
theorem test_ldst_layout : cell (gridOfBlock blockA) 1 2 = 0x09 ∧
    gridAfter (exec .ldst (holding blockA)) = some blockA.toList := by decide
theorem test_stst_layout : doutAfter (exec .stst (holding blockA)) = some blockA.toList := by decide
theorem test_sub_stateA : gridAfter (exec .sub (holding blockA)) = some
    [0x63, 0x7c, 0x77, 0x7b, 0xf2, 0x6b, 0x6f, 0xc5, 0x30, 0x01, 0x67, 0x2b, 0xfe, 0xd7, 0xab, 0x76] := by decide
theorem test_sub_stateD : gridAfter (exec .sub (holding blockD)) = some
    [0xd4, 0x27, 0x11, 0xae, 0xe0, 0xbf, 0x98, 0xf1, 0xb8, 0xb4, 0x5d, 0xe5, 0x1e, 0x41, 0x52, 0x30] := by decide
theorem test_isub_stateA : gridAfter (exec .isub (holding blockA)) = some
    [0x52, 0x09, 0x6a, 0xd5, 0x30, 0x36, 0xa5, 0x38, 0xbf, 0x40, 0xa3, 0x9e, 0x81, 0xf3, 0xd7, 0xfb] := by decide
theorem test_isub_stateD : gridAfter (exec .isub (holding blockD)) = some
    [0x8e, 0x8b, 0x4d, 0x5a, 0x47, 0xba, 0x3b, 0x0b, 0x37, 0xc7, 0xb4, 0x95, 0xeb, 0xe1, 0xd4, 0xbf] := by decide
theorem test_shr_stateA : gridAfter (exec .shr (holding blockA)) = some
    [0x00, 0x05, 0x0a, 0x0f, 0x04, 0x09, 0x0e, 0x03, 0x08, 0x0d, 0x02, 0x07, 0x0c, 0x01, 0x06, 0x0b] := by decide
theorem test_shr_stateD : gridAfter (exec .shr (holding blockD)) = some
    [0x19, 0xf4, 0x8d, 0x08, 0xa0, 0xc6, 0x48, 0xbe, 0x9a, 0xf8, 0xe3, 0x2b, 0xe9, 0x3d, 0xe2, 0x2a] := by decide
theorem test_ishr_stateA : gridAfter (exec .ishr (holding blockA)) = some
    [0x00, 0x0d, 0x0a, 0x07, 0x04, 0x01, 0x0e, 0x0b, 0x08, 0x05, 0x02, 0x0f, 0x0c, 0x09, 0x06, 0x03] := by decide
theorem test_ishr_stateD : gridAfter (exec .ishr (holding blockD)) = some
    [0x19, 0xf8, 0x8d, 0x2b, 0xa0, 0x3d, 0x48, 0x2a, 0x9a, 0xf4, 0xe3, 0x08, 0xe9, 0xc6, 0xe2, 0xbe] := by decide
theorem test_mix_stateA : gridAfter (exec .mix (holding blockA)) = some
    [0x02, 0x07, 0x00, 0x05, 0x06, 0x03, 0x04, 0x01, 0x0a, 0x0f, 0x08, 0x0d, 0x0e, 0x0b, 0x0c, 0x09] := by decide
theorem test_mix_stateD : gridAfter (exec .mix (holding blockD)) = some
    [0x28, 0xe3, 0x20, 0x92, 0x95, 0x45, 0xf6, 0xbb, 0xd9, 0xab, 0x23, 0xaa, 0x9a, 0xd2, 0x99, 0x80] := by decide
theorem test_imix_stateA : gridAfter (exec .imix (holding blockA)) = some
    [0x0a, 0x0f, 0x08, 0x0d, 0x0e, 0x0b, 0x0c, 0x09, 0x02, 0x07, 0x00, 0x05, 0x06, 0x03, 0x04, 0x01] := by decide
theorem test_imix_stateD : gridAfter (exec .imix (holding blockD)) = some
    [0x08, 0x3c, 0x00, 0x4d, 0x02, 0x90, 0x61, 0x6e, 0x1c, 0xaf, 0xe6, 0xae, 0x96, 0x81, 0x95, 0xd3] := by decide
theorem test_ark0_stateA : gridAfter (exec (.ark 0) (holding blockA)) = some
    [0x2b, 0x7f, 0x17, 0x15, 0x2c, 0xab, 0xd4, 0xa1, 0xa3, 0xfe, 0x1f, 0x83, 0x05, 0xc2, 0x41, 0x33] := by decide
theorem test_ark1_stateD : gridAfter (exec (.ark 1) (holding blockD)) = some
    [0xb9, 0xc7, 0x1d, 0xa9, 0x28, 0xa0, 0xce, 0x9a, 0xb9, 0x65, 0xb4, 0x13, 0xc3, 0x94, 0x3e, 0x0d] := by decide
theorem test_kxw_copies_key : wordAfter 3 (exec (.kxw 3) (holding blockA)) = some [0x0c, 0x0d, 0x0e, 0x0f] := by decide
theorem test_kxw4_of_K2 : wordAfter 4 (exec (.kxw 4) (holding blockA)) = some [0xa0, 0xfa, 0xfe, 0x17] ∧
    wordAfter 5 (exec (.kxw 5) (holding blockA)) = some [0x88, 0x54, 0x2c, 0xb1] := by decide

/-! ## Host commands (95_test_vectors.md section 2.9: statuses; 44_orchestrator.md rule R201: what starts) -/

theorem test_keyexp_starts : controlAfter (exec (.keyexp blockA.toList) (presented true [])) =
    some ([], false, true, 84) := by decide
theorem test_keyexp_wrong_length : controlAfter (exec (.keyexp [1, 2, 3]) (presented true [])) =
    some ([(0x01, [])], true, false, 0) := by decide
theorem test_enc_starts : controlAfter (exec (.enc blockA.toList) (presented true [])) =
    some ([], true, true, 0) := by decide
theorem test_enc_length_before_schedule : controlAfter (exec (.enc [1]) (presented false [])) =
    some ([(0x02, [])], false, false, 0) := by decide
theorem test_dec_starts : controlAfter (exec (.dec blockA.toList) (presented true [])) =
    some ([], true, true, 42) := by decide
theorem test_dec_without_schedule : controlAfter (exec (.dec blockA.toList) (presented false [])) =
    some ([(0x03, [])], false, false, 0) := by decide
theorem test_reserved_command : controlAfter (step (presented true [⟨0x7F, []⟩])) =
    some ([(0x04, [])], true, false, 0) := by decide

/-! ## The sequencer -/

/-- From reset with nothing presented the engine waits. -/
theorem test_reset_waits : controlAfter (step State.reset) = some ([], false, false, 0) := by decide

/-- STST at entry 41 ends the run with the extracted block (R205). -/
theorem test_completion_of_block : controlAfter (step { holding blockA with
    lane := { (holding blockA).lane with busy := true, upc := 41 } }) =
    some ([(0x00, blockA.toList)], true, false, 0) := by decide

/-- KXW 43 at entry 127 ends the run with no data and sets KEY_VALID (R205). -/
theorem test_completion_of_schedule : controlAfter (step { holding blockA with
    keyValid := false, lane := { (holding blockA).lane with busy := true, upc := 127 } }) =
    some ([(0x00, [])], true, false, 0) := by decide

/-- A reset event in the middle of a run abandons it without a response (R270). -/
theorem test_reset_event : controlAfter (step { holding blockA with
    schedule := [.reset], lane := { (holding blockA).lane with busy := true, upc := 20 } }) =
    some ([], false, false, 0) := by decide

/-- A table word of each kind is fetched and run by the next step after reset. -/
theorem test_placed_words_run : [0x01, 0x02, 0x03, 0x04, 0x08, 0x40, 0x4A, 0x80, 0x84, 0xAB].all
    (fun w : Nat => (controlAfter (step (State.reset.withFetchWord 8 w))).isSome) = true := by decide

/-! ## A second lane: an idle lane 0 while lane 1 runs a KEYEXP at entry 100 -/

/-- Lane 0 idle with an ENC presented, lane 1 busy at `upc`. -/
def twoLanes (upc : BitVec 7) : State :=
  { presented true [⟨0x02, blockA.toList⟩] with
    upper := [{ Lane.resetAt 0 with grid := .holds (gridOfBlock blockA), din := .holds blockA, busy := true, upc := upc }] }

/-- The ENC is held while the KEYEXP runs, and accepted while a block transform does (R275). -/
theorem test_enc_held_during_keyexp : laneOpen (twoLanes 100) = false ∧ laneOpen (twoLanes 5) = true ∧
    allIdle (twoLanes 5) = false := by decide

/-! ## Witnesses: every statement's hypotheses are met by a concrete state -/

/-- DecodeInvertsEncode. -/
theorem test_witness_decode : (Instr.ark 10).wellFormed = true ∧ decode .U 0xAB [] = .ok (.kxw 43) ∧
    decode .H 0x03 [5] = .ok (.dec [5]) := by decide

/-- ArkEncoding, KxwEncoding: the reserved ranges meet their bounds. -/
theorem test_witness_reserved_ranges : (0x4B : Byte) ≤ 0x4B ∧ (0x7F : Byte) ≤ 0x7F ∧ (0xAC : Byte) ≤ 0xAC ∧
    (0xBF : Byte) ≤ 0xBF ∧ (10#4).toNat ≤ 10 ∧ (43#6).toNat ≤ 43 := by decide

/-- GfmulFieldLaws: a zero product, a non-zero Byte, an exponent below 51. -/
theorem test_witness_field_laws : gfmul 0x00 0x05 = 0x00 ∧ (0x53 : Byte) ≠ 0x00 ∧ gfmul 0x53 0xCA = 0x01 := by decide

/-- LdstLoadsColumnMajor, StstExtractsColumnMajor, SubstituteSteps, ShiftRowsSteps, MixColumnsStep,
InverseMixColumnsStep: a State and a DIN that hold values. -/
theorem test_witness_values_held : (holding blockA).lane.din = .holds blockA ∧
    (holding blockA).lane.grid = .holds (gridOfBlock blockA) := ⟨rfl, rfl⟩

/-- ArkAddsRoundKey, at r = 10. -/
theorem test_witness_ark : (10#4).toNat ≤ 10 ∧ ∀ col : Fin 4,
    (holding blockA).w[4 * (10#4).toNat + col.val]? = some (.holds (wrd [])) := by decide

/-- KxwComputesWord, at i = 3 (copied), 4 and 43 (the ends of the recurrence). -/
theorem test_witness_kxw : (3#6).toNat < 4 ∧ 4 ≤ (4#6).toNat ∧ (43#6).toNat ≤ 43 ∧
    (holding blockA).w[(4#6).toNat - 1]? = some (.holds (wrd [0x09, 0xcf, 0x4f, 0x3c])) ∧
    (holding blockA).w[(4#6).toNat - 4]? = some (.holds (wrd [0x2b, 0x7e, 0x15, 0x16])) ∧
    (holding blockA).w[(43#6).toNat - 1]? = some (.holds (wrd [])) ∧
    (holding blockA).w[(43#6).toNat - 4]? = some (.holds (wrd [])) := by decide

/-- NoValueReadFaults: after reset nothing holds a value. -/
theorem test_witness_no_value : State.reset.lane.din.value? = none ∧ State.reset.lane.grid.value? = none ∧
    State.reset.w[4 * (10#4).toNat + 3]?.map Content.value? = some none ∧ State.reset.w[(4#6).toNat - 1]?.map Content.value? = some none ∧
    faultOf (exec .sub State.reset) = some .noValueRead := by decide

/-- OutOfRangeOperandsFault, at the first operands out of range. -/
theorem test_witness_out_of_range : 10 < (11#4).toNat ∧ 43 < (44#6).toNat ∧
    faultOf (exec (.ark 11) (holding blockA)) = some .badMicroOp := by decide

/-- StateTransformFrame, StstFrame, KxwFrame, HostCommandFrame: next states exist. -/
theorem test_witness_frames : [Instr.ldst, .sub, .isub, .shr, .ishr, .mix, .imix, .ark 10, .stst, .kxw 43,
    .keyexp blockA.toList, .enc [], .dec []].all
    (fun i => (controlAfter (exec i (holding blockA))).isSome) = true := by decide

/-- HostCommandsStart, WrongLengthAnswered, NoScheduleAnswered, ReservedCommandAnswered: idle lanes with requests. -/
theorem test_witness_acceptance :
    allIdle (presented true []) = true ∧ laneOpen (presented true []) = true ∧ (presented true []).keyValid = true ∧
    allIdle (presented true [⟨0x01, [9]⟩]) = true ∧ ([9] : List Byte).length ≠ 16 ∧
    laneOpen (presented true [⟨0x02, [9]⟩]) = true ∧ laneOpen (presented true [⟨0x03, [9]⟩]) = true ∧
    laneOpen (presented false [⟨0x02, blockA.toList⟩]) = true ∧ blockA.toList.length = 16 ∧
    laneOpen (presented false [⟨0x00, []⟩]) = true ∧ laneOpen (presented false [⟨0xFF, []⟩]) = true ∧
    (0x04 : Byte) ≤ 0x04 := by decide

/-- HeldRequestsWait: an ENC held on an idle lane; a lane with nothing presented; a busy lane that steps. -/
theorem test_witness_held : (twoLanes 100).lane.busy = false ∧
    (twoLanes 100).lane.port = [⟨0x02, blockA.toList⟩] ∧ canAccept 0x02 (twoLanes 100) = false ∧
    State.reset.lane.port = [] ∧ State.reset.lane.busy = false := by decide

/-- A lane at `upc`, everything holding values. -/
def running (upc : BitVec 7) : State :=
  { holding blockA with lane := { (holding blockA).lane with busy := true, upc := upc } }

/-- MicroStepAdvancesOrCompletes, at the entries of each clause and at their neighbours; StepRunsDecodedInstruction. -/
theorem test_witness_microStep : [0, 40, 41, 42, 83, 84, 126, 127].all
    (fun u : Nat => (controlAfter (laneStep (running (BitVec.ofNat 7 u)))).isSome) = true ∧
    decodeU (fetch 41) = .ok .stst ∧ decodeU (fetch 127) = .ok (.kxw 43) ∧ (running 41).lane.busy = true := by decide

/-- StepRunsDecodedInstruction: an accepted request that decodes. -/
theorem test_witness_accepted_request :
    canAccept 0x02 (presented true [⟨0x02, blockA.toList⟩]) = true ∧
    decodeH 0x02 blockA.toList = .ok (.enc blockA.toList) ∧
    (presented true [⟨0x02, blockA.toList⟩]).lane.busy = false := by decide

/-- `n` turns for lane 0, on one idle lane with `reqs` presented. -/
def scheduled (n : Nat) (reqs : List Request) : State :=
  { presented true reqs with schedule := List.replicate n (.turn 0) }

/-- EncRunsToCiphertext and DecRunsToPlaintext. -/
theorem test_witness_block_runs (cmd : Byte) :
    (scheduled 43 [⟨cmd, blockA.toList⟩]).schedule =
      List.replicate 43 (.turn (scheduled 43 [⟨cmd, blockA.toList⟩]).laneNo) ++ [] ∧
    (scheduled 43 [⟨cmd, blockA.toList⟩]).lane.port = ⟨cmd, blockA.toList⟩ :: [] ∧
    laneOpen (scheduled 43 [⟨cmd, blockA.toList⟩]) = true ∧ (scheduled 43 [⟨cmd, blockA.toList⟩]).keyValid = true ∧
    ∀ n : Fin 44, (scheduled 43 [⟨cmd, blockA.toList⟩]).w[n] = .holds k2Schedule[n] :=
  ⟨rfl, rfl, rfl, rfl, by simp [scheduled, presented, holding]⟩

/-- KeyexpRunsToSchedule. -/
theorem test_witness_keyexp_run :
    (scheduled 45 [⟨0x01, blockA.toList⟩]).schedule =
      List.replicate 45 (.turn (scheduled 45 [⟨0x01, blockA.toList⟩]).laneNo) ++ [] ∧
    (scheduled 45 [⟨0x01, blockA.toList⟩]).lane.port = ⟨0x01, blockA.toList⟩ :: [] ∧
    allIdle (scheduled 45 [⟨0x01, blockA.toList⟩]) = true := ⟨rfl, rfl, rfl⟩

/-- TransactionViewsAgree: an ERR_BLKLEN transaction, one step. -/
theorem test_witness_views_agree :
    transactionSteps (scheduled 1 [⟨0x02, [7]⟩]) ⟨0x02, [7]⟩ = 1 ∧
    (scheduled 1 [⟨0x02, [7]⟩]).schedule = List.replicate 1 (.turn (scheduled 1 [⟨0x02, [7]⟩]).laneNo) ++ [] ∧
    canAccept 0x02 (scheduled 1 [⟨0x02, [7]⟩]) = true ∧ (scheduled 1 [⟨0x02, [7]⟩]).lane.upc = 0 ∧
    transact (scheduled 1 [⟨0x02, [7]⟩]) ⟨0x02, [7]⟩ = some (scheduled 1 [⟨0x02, [7]⟩], ⟨.errBlkLen, []⟩) := by
  refine ⟨by decide, rfl, by decide, rfl, ?_⟩
  rfl

/-- TransactionViewsAgree: an ENC that runs has 43 steps and a result. -/
theorem test_witness_views_agree_enc :
    transactionSteps (scheduled 43 [⟨0x02, blockA.toList⟩]) ⟨0x02, blockA.toList⟩ = 43 ∧
    (transact (scheduled 43 [⟨0x02, blockA.toList⟩]) ⟨0x02, blockA.toList⟩).isSome = true := by
  decide

/-- EngineRoundTrip: whatever the third request's data. -/
theorem test_witness_round_trip (c : Block) :
    (scheduled 131 [⟨0x01, blockA.toList⟩, ⟨0x02, blockD.toList⟩, ⟨0x03, c.toList⟩]).schedule =
      List.replicate 131 (.turn 0) ++ [] ∧
    allIdle (scheduled 131 [⟨0x01, blockA.toList⟩, ⟨0x02, blockD.toList⟩, ⟨0x03, c.toList⟩]) = true := ⟨rfl, rfl⟩

/-- ResetEventResetsEngine: a reset event next, a run in progress. -/
theorem test_witness_reset_event : ({ running 20 with schedule := [.reset] } : State).schedule = .reset :: [] := rfl

/-- StepKeepsInvariant, NoFaultUnderInvariant: the invariant holds after reset, where the engine steps. -/
theorem test_witness_invariant : Inv State.reset := by
  constructor <;> simp [State.reset, State.resetLanes, State.lanes, Config.nLanes, Lane.resetAt, Lane.IdleOk,
    Lane.BlockOk, Lane.KeyexpOk, Lane.runsKeyexp]

/-- StepKeepsInvariant, NoFaultUnderInvariant: the invariant holds where a KEYEXP has been accepted, at entry 84. -/
theorem test_witness_invariant_busy : Inv { State.reset with
    lane := { Lane.resetAt 0 with din := .holds blockA, busy := true, upc := 84 } } := by
  constructor <;> simp [State.reset, State.resetLanes, State.lanes, Config.nLanes, Lane.resetAt, Lane.IdleOk,
    Lane.BlockOk, Lane.KeyexpOk]

/-- ScheduleReadOnly: a step of the engine that changes KEY_VALID. -/
theorem test_witness_key_valid_changes : controlAfter (step (presented true [⟨0x01, blockA.toList⟩])) =
    some ([], false, true, 84) ∧ (presented true [⟨0x01, blockA.toList⟩]).keyValid = true := by decide

/-- ScheduleReadOnly: a lane in a block transform steps, and runs no KEYEXP. -/
theorem test_witness_read_only : (running 20).lane.runsKeyexp = false ∧ (running 20).lane.busy = true ∧
    (controlAfter (laneStep (running 20))).isSome = true := by decide

/-- LaneTurnsCommute: two lanes in block transforms, given a turn each. -/
theorem test_witness_commute :
    ((({ twoLanes 5 with lane := (running 20).lane } : State).lanes[0]?).map fun l => (l.busy, l.upc)) = some (true, 20) ∧
    ((({ twoLanes 5 with lane := (running 20).lane } : State).lanes[1]?).map fun l => (l.busy, l.upc)) = some (true, 5) ∧
    (controlAfter (run 2 { twoLanes 5 with
      lane := (running 20).lane, schedule := [.turn 0, .turn 1] })).isSome = true := by decide

/-- StepRunsDecodedInstruction: of two lanes, lane 1 exists and lane 2 does not; the turn of lane 1 is its own. -/
theorem test_witness_focus : ((twoLanes 5).lanes[1]?).map (fun l => (l.busy, l.upc)) = some (true, 5) ∧
    (twoLanes 5).lanes[2]? = none ∧ (focus 1 (twoLanes 5)).laneNo = 1 ∧ (twoLanes 5).schedule = [] := by decide

/-- OtherLanesUntouched: lane 1 of two is given its turn; it advances, and lane 0 still has its request (R34, R211). -/
theorem test_witness_turn_of_lane1 : 1 < ({ twoLanes 5 with schedule := [.turn 1] } : State).lanes.length ∧
    (match step { twoLanes 5 with schedule := [.turn 1] } with
      | .next t => t.lanes.map fun l => (l.upc, l.port)
      | .fault _ => []
      | .refused _ => []) = [(0, [⟨0x02, blockA.toList⟩]), (6, [])] := by decide

/-- ResetEventResetsEngine: the request at a port stays (notes/assumptions/11.md). -/
theorem test_reset_event_keeps_ports : (match step { twoLanes 5 with schedule := [.reset] } with
      | .next t => t.lanes.map fun l => (l.busy, l.port)
      | .fault _ => []
      | .refused _ => []) = [(false, [⟨0x02, blockA.toList⟩]), (false, [])] := by decide

/-- ValuesHeld, whose theorems stand in Laws/Values.lean: it holds where KEYEXP has been accepted after reset, at entry
84, and no run from reset with an ENC presented before any key stops (R272). -/
theorem test_witness_valuesHeld : ValuesHeld { State.reset with
    lane := { Lane.resetAt 0 with din := .holds blockA, busy := true, upc := 84 } } :=
  ⟨fun h => Bool.noConfusion h, by
    simp only [State.lanes, State.reset, State.resetLanes, Config.nLanes]
    intro l hl
    obtain rfl := List.mem_singleton.1 hl
    constructor <;> simp⟩

theorem test_run_from_reset (n : Nat) : ∃ t, run n { State.resetLanes 0 with
    lower := [], lane := { Lane.resetAt 0 with port := [⟨0x02, blockA.toList⟩] }, upper := [], schedule := [] } = .next t :=
  run_from_reset_never_stops 0 [] [] _ [] (fun l hl => ⟨0, l, by
    obtain rfl := List.mem_singleton.1 hl; rfl⟩) n

/-- S, after STST has ended the run, still holds the final State's bit pattern, and no value (R23). -/
theorem test_completion_keeps_bits : (match step { holding blockA with
      lane := { (holding blockA).lane with busy := true, upc := 41 } } with
      | .next t => some (t.lane.grid)
      | .fault _ => none
      | .refused _ => none) = some (.noValue (gridOfBlock blockA)) := by decide

/-- HostCommandFrame: a held ENC gives a next state, and a started one is accepted (R274, R275). -/
theorem test_witness_held_frame : canAccept (encode (.enc blockA.toList)) (twoLanes 100) = false ∧
    controlAfter (exec (.enc blockA.toList) (twoLanes 100)) = some ([], true, false, 0) ∧
    canAccept (encode (.enc blockA.toList)) (presented true []) = true := by decide

end Sys2Proof.Tests
end

section
/-! PROOFS. The state after reset, which lanes a step leaves alone, and the invariant of the engine (rules R22, R26, R29,
R34, R35, R205, R211, R253, R270, R275). -/

namespace Sys2Proof.Machine

/-! ## What a micro-step can do -/

/-- The next states of a micro-step, by the part of the micro-program the moving lane is in (R202 to R205). -/
inductive MicroStepEffect (s : State) : State → Prop where
  /-- A micro-operation of a block sequence before its STST writes the State. -/
  | stateWritten (g : Grid) (hu : s.lane.upc.toNat < 84) (h41 : s.lane.upc ≠ 41) (h83 : s.lane.upc ≠ 83) :
      MicroStepEffect s (advance (writeGrid g s))
  /-- STST ends a block sequence. -/
  | blockEnded (b : Block) (hu : s.lane.upc = 41 ∨ s.lane.upc = 83) :
      MicroStepEffect s (respond .ok b.toList (goIdle (advance (writeDout b s))))
  /-- `KXW n` before the last writes a word. -/
  | wordWritten (n : Nat) (v : Word) (hn : n < 43) (hu : s.lane.upc.toNat = 84 + n) (hv : kxwWord n s = some v) :
      MicroStepEffect s (advance (writeW n v s))
  /-- `KXW 43` ends the key expansion. -/
  | scheduleEnded (v : Word) (hu : s.lane.upc.toNat = 127) (hv : kxwWord 43 s = some v) :
      MicroStepEffect s (respond .ok [] (goIdle (setKeyValid true (advance (writeW 43 v s)))))

/-- A State-to-State micro-operation at an entry between LDST and STST writes the State and ends nothing (R150). -/
theorem MicroStepEffect.of_transform {s u t : State} {f : Grid → Grid} (hr : fitsEntry.inRound s.lane.upc = true)
    (hu : transform f s = .next u) (ht : complete .none u = .next t) : MicroStepEffect s t := by
  obtain ⟨g, -, rfl⟩ := transform_next.1 hu
  cases ht
  simp only [fitsEntry.inRound, Bool.and_eq_true, decide_eq_true_eq, bne_iff_ne] at hr
  obtain ⟨⟨⟨⟨h84, -⟩, h41⟩, -⟩, h83⟩ := hr
  exact .stateWritten _ h84 h41 h83

/-- Every micro-step that gives a next state has one of the four effects: the micro-program holds at each entry only the
micro-operations that fit it (R203, R204). -/
theorem microStep_effect {s t : State} (h : microStep s = .next t) : MicroStepEffect s t := by
  obtain ⟨i, u, hd, hu, ht⟩ := microStep_next.1 h
  obtain ⟨i', hd', hf⟩ := fetch_fitsEntry s.lane.upc
  obtain rfl : i = i' := Except.ok.inj (hd.symm.trans hd')
  cases i with
  | keyexp _ => cases hf
  | enc _ => cases hf
  | dec _ => cases hf
  | sub => exact .of_transform hf hu ht
  | shr => exact .of_transform hf hu ht
  | mix => exact .of_transform hf hu ht
  | isub => exact .of_transform hf hu ht
  | ishr => exact .of_transform hf hu ht
  | imix => exact .of_transform hf hu ht
  | ark r =>
    simp only [fitsEntry, Bool.and_eq_true, decide_eq_true_eq] at hf
    obtain ⟨-, k, g, -, hg, rfl⟩ := execArk_next.1 hu
    exact .of_transform hf.2 (transform_next.2 ⟨g, hg, rfl⟩) ht
  | ldst =>
    obtain ⟨b, -, hb⟩ := withValue_next.1 hu
    cases hb
    cases ht
    simp only [fitsEntry, Bool.or_eq_true, beq_iff_eq] at hf
    rcases hf with h0 | h0 <;> exact .stateWritten _ (by simp [h0]) (by simp [h0]) (by simp [h0])
  | stst =>
    obtain ⟨g, -, hg⟩ := withValue_next.1 hu
    cases hg
    cases ht
    simp only [fitsEntry, Bool.or_eq_true, beq_iff_eq] at hf
    exact .blockEnded _ hf
  | kxw n =>
    simp only [fitsEntry, decide_eq_true_eq] at hf
    obtain ⟨hn, v, hv, rfl⟩ := execKxw_next.1 hu
    by_cases h43 : n = 43
    · subst h43
      cases ht
      exact .scheduleEnded v hf.1 hv
    · have : n.toNat ≠ 43 := fun h => h43 (BitVec.eq_of_toNat_eq h)
      rw [ending, if_neg h43] at ht
      cases ht
      exact .wordWritten _ v (by omega) hf.1 hv

/-! ## The lanes a step leaves alone -/

/-- The lanes that do not move. -/
def State.others (s : State) : List Lane := s.lower ++ s.upper

/-- A lane is the one that moves or one of the others (R34). -/
theorem mem_lanes {s : State} {l : Lane} : l ∈ s.lanes ↔ l = s.lane ∨ l ∈ s.others := by
  simp only [State.lanes, State.others, List.mem_append, List.mem_cons]
  exact or_left_comm

/-- The moving lane is a lane. -/
theorem lane_mem_lanes (s : State) : s.lane ∈ s.lanes := mem_lanes.2 (.inl rfl)

/-- What is outside the moving lane and the shared elements is as it was. -/
structure SameOthers (s t : State) : Prop where
  lower : t.lower = s.lower
  upper : t.upper = s.upper
  schedule : t.schedule = s.schedule

/-- A lane's step changes no other lane and not the schedule (R34, R253). -/
theorem laneStep_sameOthers {s t : State} (h : laneStep s = .next t) : SameOthers s t := by
  unfold laneStep at h
  split at h
  · cases microStep_effect h <;> exact ⟨rfl, rfl, rfl⟩
  · obtain hs | ⟨_, _, -, -, ⟨_, hs⟩ | ⟨_, -, -, hs⟩ | ⟨_, _, -, -, -, hs⟩⟩ := hostStep_cases s <;>
      (cases hs.symm.trans h; exact ⟨rfl, rfl, rfl⟩)

theorem SameOthers.others {s t : State} (h : SameOthers s t) : t.others = s.others := by
  rw [State.others, State.others, h.lower, h.upper]

/-- Where the others are the same, every lane but the one that moves is, by its number (R34). -/
theorem SameOthers.getElem?_lanes {s t : State} (h : SameOthers s t) {j : Nat} (hj : j ≠ s.laneNo) :
    t.lanes[j]? = s.lanes[j]? := by
  simp only [State.laneNo] at hj
  rcases Nat.lt_or_gt_of_ne hj with below | above
  · simp [State.lanes, h.lower, List.getElem?_append_left below]
  · obtain ⟨m, rfl⟩ := Nat.exists_eq_add_of_lt above
    simp [State.lanes, h.lower, h.upper, List.getElem?_append_right, Nat.add_assoc]

theorem SameOthers.length_lanes {s t : State} (h : SameOthers s t) : t.lanes.length = s.lanes.length := by
  simp [State.lanes, h.lower, h.upper]

@[simp] theorem length_resetLanesFrom (n : Nat) (ls : List Lane) : (resetLanesFrom n ls).length = ls.length := by
  induction ls generalizing n with
  | nil => rfl
  | cons l ls ih => simp [resetLanesFrom, ih]

/-- A step in which the schedule names lane `k` is that lane's step (R211). -/
theorem step_turn {s : State} {k : Nat} {rest : List Event} (h : s.schedule = .turn k :: rest) :
    step s = laneStep (focus k { s with schedule := rest }) := by
  simp [step, engineStep, h]

/-- Settles O55: `laneStep_sameOthers`, carried to the engine's step by `step_cases`. -/
theorem otherLanesUntouched : Obligations.OtherLanesUntouched := by
  unfold Obligations.OtherLanesUntouched
  refine ⟨fun s t h => ?_, fun s t k rest hs hk h j hj => ?_, fun s t hs h => ?_, fun s t h => ?_⟩
  · obtain ⟨hlower, hupper, hschedule⟩ := laneStep_sameOthers h
    exact ⟨hlower, hupper, hschedule⟩
  · rw [step_turn hs] at h
    have hno : (focus k { s with schedule := rest }).laneNo = k := focus_laneNo hk
    rw [(laneStep_sameOthers h).getElem?_lanes (hno.symm ▸ hj), focus_lanes]
    rfl
  · obtain ⟨rest, hr, -⟩ | ⟨u, hu, hl, -⟩ := step_cases s
    · exact absurd hr (hs rest)
    · exact ⟨u.laneNo, fun j hj => hl ▸ (laneStep_sameOthers (hu ▸ h)).getElem?_lanes hj⟩
  · obtain ⟨rest, -, hr⟩ | ⟨u, hu, hl, -⟩ := step_cases s
    · cases hr.symm.trans h
      rw [resetEngine_lanes, length_resetLanesFrom]
      rfl
    · exact hl ▸ (laneStep_sameOthers (hu ▸ h)).length_lanes

/-! ## The words of the key expansion -/

/-- An expanded word does not change as the later words are computed (R185). -/
theorem expandTo_getD_of_lt {key : Block} {j m n : Nat} (hj : j < m) (hm : m ≤ n) :
    (expandTo key n).toList.getD j (Vector.replicate 4 0) = (expandTo key m).toList.getD j (Vector.replicate 4 0) := by
  induction n, hm using Nat.le_induction with
  | base => rfl
  | succ n hmn ih =>
    rw [← ih]
    have : n ≠ j := by omega
    simp [expandTo, List.getD, this]

/-- A word of the expansion depends on the words before it only (R185). -/
theorem nextWord_congr {key : Block} {ws ws' : KeyWords} {n : Nat}
    (h : ∀ j < n, ws.toList.getD j (Vector.replicate 4 0) = ws'.toList.getD j (Vector.replicate 4 0)) :
    nextWord key ws n = nextWord key ws' n := by
  unfold nextWord Config.keyStride
  split
  · rfl
  · rw [h (n - 4) (by omega), h (n - 1) (by omega)]

/-- The recurrence: word `n` of the expansion is computed from the expansion's own earlier words (R185). -/
theorem expand_getElem (key : Block) {n : Nat} (hn : n < 44) : (expand key)[n] = nextWord key (expand key) n := by
  have hself : (expandTo key (n + 1)).toList.getD n (Vector.replicate 4 0) = nextWord key (expandTo key n) n := by
    simp [expandTo, List.getD, hn]
  calc (expand key)[n] = (expand key).toList.getD n (Vector.replicate 4 0) := by simp [List.getD, hn]
    _ = nextWord key (expandTo key n) n := (expandTo_getD_of_lt (Nat.lt_succ_self n) hn).trans hself
    _ = nextWord key (expand key) n := nextWord_congr fun j hj => (expandTo_getD_of_lt hj hn.le).symm

/-- `KXW n` computes word `n` of the key's expansion, where DIN holds the key and `W` the words before it (R184, R185). -/
theorem kxwWord_of_expansion {s : State} {key : Block} {n : Nat} (hn : n < 44) (hd : s.lane.din = .holds key)
    (hw : ∀ m : Fin 44, m.val < n → s.w[m] = .holds (expand key)[m]) : kxwWord n s = some (expand key)[n] := by
  have word {m : Nat} (hm : m < n) : readW m s = some ((expand key).toList.getD m (Vector.replicate 4 0)) := by
    have hm44 : m < 44 := by omega
    have := hw ⟨m, hm44⟩ hm
    simp only [Fin.getElem_fin] at this
    simp [readW_lt hm44, this, List.getD, hm44]
  rw [expand_getElem key hn]
  unfold kxwWord nextWord Config.keyStride
  split
  · simp [hd]
  · rw [word (by omega : n - 1 < n), word (by omega : n - 4 < n)]

/-- Writing word `n` of the expansion over the words before it gives the words up to `n` (R184). -/
theorem writeW_w_of_expansion {s : State} {key : Block} {n : Nat}
    (hw : ∀ m : Fin 44, m.val < n → s.w[m] = .holds (expand key)[m]) (hn : n < 44) :
    ∀ m : Fin 44, m.val < n + 1 → (writeW n (expand key)[n] s).w[m] = .holds (expand key)[m] := by
  intro m hm
  simp only [writeW_w, Fin.getElem_fin, Vector.getElem_setIfInBounds]
  split
  · subst n; rfl
  · exact hw m (by omega)

/-! ## The invariant, lane by lane -/

/-- What the invariant says of one lane, with the shared elements it depends on (R22, R29, R184, R205). -/
structure Lane.Ok (keyValid : Bool) (w : Vector (Content Word) 44) (l : Lane) : Prop where
  idle : l.IdleOk
  block : l.BlockOk keyValid
  keyexp : l.KeyexpOk keyValid w

/-- An idle lane meets the invariant whatever the shared elements hold (R29, R205). -/
theorem Lane.Ok.of_idle {keyValid : Bool} {w : Vector (Content Word) 44} {l : Lane} (hb : l.busy = false)
    (hi : l.IdleOk) : l.Ok keyValid w :=
  ⟨hi, fun h => absurd h (by simp [hb]), fun h => absurd h (by simp [hb])⟩

/-- A lane in a block sequence meets the invariant under a valid schedule, with DIN written, and the State exactly after
LDST (R22, R26, R27). -/
theorem Lane.Ok.of_block {w : Vector (Content Word) 44} {l : Lane} (hb : l.busy = true) (hu : l.upc.toNat < 84)
    (hd : l.din.value?.isSome = true) (hg : l.grid.value?.isSome = true ↔ l.upc ≠ 0 ∧ l.upc ≠ 42) : l.Ok true w :=
  ⟨fun h => absurd h (by simp [hb]), fun _ _ => ⟨rfl, hd, hg⟩, fun _ h => absurd hu (by omega)⟩

/-- A lane at `KXW n` meets the invariant, KEY_VALID being 0, with no State, the key in DIN and the words before `n`
those of its expansion (R26, R184). -/
theorem Lane.Ok.of_keyexp {w : Vector (Content Word) 44} {l : Lane} {key : Block} {n : Nat} (hb : l.busy = true)
    (hu : l.upc.toNat = 84 + n) (hg : l.grid.value? = none) (hd : l.din = .holds key)
    (hw : ∀ m : Fin 44, m.val < n → w[m] = .holds (expand key)[m]) : l.Ok false w :=
  ⟨fun h => absurd h (by simp [hb]), fun _ h => absurd h (by omega),
    fun _ _ => ⟨rfl, hg, key, hd, fun m hm => hw m (by omega)⟩⟩

/-- A lane runs a KEYEXP exactly when it is busy at an entry from 84 on (R202). -/
theorem runsKeyexp_iff {l : Lane} : l.runsKeyexp = true ↔ l.busy = true ∧ 84 ≤ l.upc.toNat := by
  simp [Lane.runsKeyexp, keyexpEntry]

/-- An idle lane runs no KEYEXP. -/
theorem runsKeyexp_of_idle {l : Lane} (h : l.busy = false) : l.runsKeyexp = false := by
  simp [Lane.runsKeyexp, h]

/-- A lane in a block sequence runs no KEYEXP (R202). -/
theorem runsKeyexp_of_lt {l : Lane} (h : l.upc.toNat < 84) : l.runsKeyexp = false := by
  simp [Lane.runsKeyexp, keyexpEntry, h]

/-! ## What the invariant says of a state -/

theorem Inv.laneOk {s : State} (h : Inv s) {l : Lane} (hl : l ∈ s.lanes) : l.Ok s.keyValid s.w :=
  ⟨h.idle l hl, h.block l hl, h.keyexp l hl⟩

/-- The invariant does not depend on which lane moves or on the schedule (R34, R211). -/
theorem Inv.congr {s t : State} (h : Inv s) (hl : t.lanes = s.lanes) (hw : t.w = s.w)
    (hk : t.keyValid = s.keyValid) : Inv t := by
  constructor <;> simp only [hl, hw, hk]
  exacts [h.idle, h.block, h.keyexp, h.exclusive, h.schedule]

/-- Under a valid schedule no lane runs a KEYEXP (R26, R208). -/
theorem Inv.runsKeyexp_of_keyValid {s : State} (h : Inv s) (hk : s.keyValid = true) :
    ∀ l ∈ s.lanes, l.runsKeyexp = false := by
  intro l hl
  by_contra hr
  obtain ⟨hb, hu⟩ := runsKeyexp_iff.1 (Bool.eq_true_of_not_eq_false hr)
  obtain ⟨hk', -⟩ := h.keyexp l hl hb hu
  simp [hk] at hk'

/-- While the moving lane runs a KEYEXP every other lane is idle (R275). -/
theorem Inv.others_idle {s : State} (h : Inv s) (hr : s.lane.runsKeyexp = true) : ∀ l ∈ s.others, l.busy = false := by
  have hone := h.exclusive ⟨s.lane, lane_mem_lanes s, hr⟩
  have hcount : (s.lanes.filter fun l => l.busy).length = (s.others.filter fun l => l.busy).length + 1 := by
    simp only [State.lanes, State.others, List.filter_append, List.filter_cons, (runsKeyexp_iff.1 hr).1, if_true,
      List.length_append, List.length_cons]
    omega
  have hnone : (s.others.filter fun l => l.busy).length = 0 := by omega
  intro l hl
  have := List.filter_eq_nil_iff.1 (List.length_eq_zero_iff.1 hnone) l hl
  simpa using this

/-! ## How the invariant is established -/

/-- A state in which no lane runs a KEYEXP meets the invariant when its lanes and its schedule do. -/
theorem Inv.of_noKeyexp {s : State} (hl : ∀ l ∈ s.lanes, l.Ok s.keyValid s.w)
    (hn : ∀ l ∈ s.lanes, l.runsKeyexp = false) (hs : s.keyValid = true → ∃ key, HoldsSchedule key s.w) : Inv s :=
  ⟨fun l h => (hl l h).idle, fun l h => (hl l h).block, fun l h => (hl l h).keyexp,
    fun ⟨l, h, hr⟩ => absurd hr (by simp [hn l h]), hs⟩

/-- A state with every lane idle at its values and KEY_VALID 0 meets the invariant (R35, R270). -/
theorem Inv.of_idle {s : State} (hk : s.keyValid = false) (hb : ∀ l ∈ s.lanes, l.busy = false)
    (hi : ∀ l ∈ s.lanes, l.IdleOk) : Inv s :=
  .of_noKeyexp (fun l h => .of_idle (hb l h) (hi l h)) (fun l h => runsKeyexp_of_idle (hb l h))
    fun h => absurd h (by simp [hk])

/-- The moving lane may change alone, `W` and KEY_VALID as they were, while no lane runs a KEYEXP. -/
theorem Inv.of_sameShared {s t : State} (h : Inv s) (ho : SameOthers s t) (hw : t.w = s.w)
    (hk : t.keyValid = s.keyValid) (hn : ∀ l ∈ s.lanes, l.runsKeyexp = false) (hl : t.lane.Ok s.keyValid s.w)
    (hr : t.lane.runsKeyexp = false) : Inv t := by
  refine .of_noKeyexp (fun l hm => ?_) (fun l hm => ?_) (by rw [hw, hk]; exact h.schedule)
  · rw [hw, hk]
    obtain rfl | hm := mem_lanes.1 hm
    · exact hl
    · exact h.laneOk (mem_lanes.2 (.inr (ho.others ▸ hm)))
  · obtain rfl | hm := mem_lanes.1 hm
    · exact hr
    · exact hn l (mem_lanes.2 (.inr (ho.others ▸ hm)))

/-- While the other lanes are idle the moving lane may change the shared elements: the other lanes read none. -/
theorem Inv.of_othersIdle {s t : State} (h : Inv s) (ho : SameOthers s t) (hi : ∀ l ∈ s.others, l.busy = false)
    (hl : t.lane.Ok t.keyValid t.w) (hs : t.keyValid = true → ∃ key, HoldsSchedule key t.w) : Inv t := by
  have idle : ∀ l ∈ t.others, l.busy = false := ho.others ▸ hi
  have ok : ∀ l ∈ t.lanes, l.Ok t.keyValid t.w := by
    intro l hm
    obtain rfl | hm := mem_lanes.1 hm
    · exact hl
    · exact .of_idle (idle l hm) (h.idle l (mem_lanes.2 (.inr (ho.others ▸ hm))))
  refine ⟨fun l hm => (ok l hm).idle, fun l hm => (ok l hm).block, fun l hm => (ok l hm).keyexp, ?_, hs⟩
  rintro ⟨l, hm, hr⟩
  have hb := (runsKeyexp_iff.1 hr).1
  obtain rfl | hm := mem_lanes.1 hm
  · have none_busy : t.others.filter (fun l => l.busy) = [] := List.filter_eq_nil_iff.2 fun l hm => by simp [idle l hm]
    simp only [State.others, List.filter_append, List.append_eq_nil_iff] at none_busy
    simp [State.lanes, hb, none_busy]
  · exact absurd hb (by simp [idle l hm])

/-! ## A lane's step keeps the invariant -/

/-- Below its last entry the micro-program counter counts up without wrapping (R29). -/
theorem toNat_upc_add_one {upc : BitVec 7} (h : upc.toNat < 127) : (upc + 1).toNat = upc.toNat + 1 := by
  rw [BitVec.toNat_add]
  exact Nat.mod_eq_of_lt (Nat.succ_lt_succ h)

/-- The word that `KXW n` computes in its place extends the part of the key's expansion that `W` holds (R184, R208). -/
theorem Lane.KeyexpOk.writeW_expansion {s : State} {n : Nat} {v : Word} (h : s.lane.KeyexpOk s.keyValid s.w)
    (hb : s.lane.busy = true) (hn : n < 44) (hu : s.lane.upc.toNat = 84 + n) (hv : kxwWord n s = some v) :
    s.keyValid = false ∧ s.lane.grid.value? = none ∧ ∃ key, s.lane.din = .holds key ∧
      ∀ m : Fin 44, m.val < n + 1 → (writeW n v s).w[m] = .holds (expand key)[m] := by
  obtain ⟨hk, hg, key, hd, hw⟩ := h hb (by omega)
  rw [hu, Nat.add_sub_cancel_left] at hw
  obtain rfl : (expand key)[n] = v := Option.some.inj ((kxwWord_of_expansion hn hd hw).symm.trans hv)
  exact ⟨hk, hg, key, hd, writeW_w_of_expansion hw hn⟩

/-- A micro-step of a busy lane keeps the invariant (R204, R205). -/
theorem microStep_keeps_inv {s t : State} (h : Inv s) (hb : s.lane.busy = true) (ht : microStep s = .next t) :
    Inv t := by
  have own := h.laneOk (lane_mem_lanes s)
  have ho : SameOthers s t := laneStep_sameOthers (by rw [laneStep, if_pos hb, ht])
  cases microStep_effect ht with
  | stateWritten g hu h41 h83 =>
    obtain ⟨hk, hd, -⟩ := own.block hb hu
    have h83' : s.lane.upc.toNat ≠ 83 := fun h => h83 (BitVec.eq_of_toNat_eq h)
    have hnext := toNat_upc_add_one (upc := s.lane.upc) (by omega)
    have hu' : (s.lane.upc + 1).toNat < 84 := by omega
    have hloaded : s.lane.upc + 1 ≠ 0 ∧ s.lane.upc + 1 ≠ 42 := by
      refine ⟨fun h => ?_, fun h => h41 (BitVec.eq_of_toNat_eq ?_)⟩
      · exact absurd (hnext.symm.trans (congrArg BitVec.toNat h)) (Nat.succ_ne_zero _)
      · exact Nat.succ.inj (hnext.symm.trans (congrArg BitVec.toNat h))
    refine h.of_sameShared ho rfl rfl (h.runsKeyexp_of_keyValid hk) ?_ (runsKeyexp_of_lt hu')
    rw [hk]
    exact .of_block hb hu' hd (iff_of_true rfl hloaded)
  | blockEnded b hu =>
    have hu' : s.lane.upc.toNat < 84 := by rcases hu with h | h <;> simp [h]
    obtain ⟨hk, -⟩ := own.block hb hu'
    exact h.of_sameShared ho rfl rfl (h.runsKeyexp_of_keyValid hk) (.of_idle rfl fun _ => ⟨rfl, rfl⟩)
      (runsKeyexp_of_idle rfl)
  | wordWritten n v hn hu hv =>
    obtain ⟨hk, hg, key, hd, hw⟩ := own.keyexp.writeW_expansion hb (by omega) hu hv
    have hnext : (s.lane.upc + 1).toNat = 84 + (n + 1) := by rw [toNat_upc_add_one (by omega), hu, Nat.add_assoc]
    refine h.of_othersIdle ho (h.others_idle (runsKeyexp_iff.2 ⟨hb, by omega⟩)) ?_ fun h => absurd h (by simp [hk])
    simp only [advance_keyValid, writeW_keyValid, hk]
    exact .of_keyexp hb hnext hg hd hw
  | scheduleEnded v hu hv =>
    obtain ⟨-, -, key, -, hw⟩ := own.keyexp.writeW_expansion hb (by omega) hu hv
    exact h.of_othersIdle ho (h.others_idle (runsKeyexp_iff.2 ⟨hb, by omega⟩)) (.of_idle rfl fun _ => ⟨rfl, rfl⟩)
      fun _ => ⟨key, fun m => hw m m.isLt⟩

/-- A request is accepted only while no lane runs a KEYEXP (R275). -/
theorem runsKeyexp_of_canAccept {cmd : Byte} {s : State} (h : canAccept cmd s = true) :
    ∀ l ∈ s.lanes, l.runsKeyexp = false := by
  unfold canAccept at h
  split at h
  · exact fun l hl => runsKeyexp_of_idle (by simpa using List.all_eq_true.1 h l hl)
  · intro l hl
    simp only [laneOpen, Bool.and_eq_true, List.all_eq_true] at h
    simpa using h.2 l hl

/-- The step of an idle lane keeps the invariant (R201, R274, R275). -/
theorem hostStep_keeps_inv {s t : State} (h : Inv s) (hb : s.lane.busy = false) (ht : hostStep s = .next t) :
    Inv t := by
  obtain ⟨hu, hg⟩ := h.idle _ (lane_mem_lanes s) hb
  have ho : SameOthers s t := laneStep_sameOthers (by simp [laneStep, hb, ht])
  obtain hs | ⟨req, more, -, hc, ⟨e, hs⟩ | ⟨b, hcmd, -, hs⟩ | ⟨b, entry, -, hk, he, hs⟩⟩ := hostStep_cases s <;>
    cases hs.symm.trans ht
  · exact h
  · exact h.of_sameShared ho rfl rfl (runsKeyexp_of_canAccept hc) (.of_idle hb fun _ => ⟨hu, hg⟩)
      (runsKeyexp_of_idle hb)
  · have idle : allIdle s = true := by rwa [hcmd] at hc
    refine h.of_othersIdle ho (fun l hl => ?_) ?_ fun h => Bool.noConfusion h
    · simpa using List.all_eq_true.1 idle l (mem_lanes.2 (.inr hl))
    · exact .of_keyexp (n := 0) rfl rfl hg rfl fun m hm => absurd hm (Nat.not_lt_zero _)
  · have hentry : entry.toNat < 84 ∧ ¬(entry ≠ 0 ∧ entry ≠ 42) := by
      rcases he with ⟨-, rfl⟩ | ⟨-, rfl⟩ <;> decide
    refine h.of_sameShared ho rfl rfl (runsKeyexp_of_canAccept hc) ?_ (runsKeyexp_of_lt hentry.1)
    rw [hk]
    exact .of_block rfl hentry.1 rfl (iff_of_false (by simp [hg]) hentry.2)

/-- The moving lane's step keeps the invariant (R201, R204). -/
theorem laneStep_keeps_inv {s t : State} (h : Inv s) (ht : laneStep s = .next t) : Inv t := by
  unfold laneStep at ht
  split at ht
  · next hb => exact microStep_keeps_inv h hb ht
  · next hb => exact hostStep_keeps_inv h (Bool.eq_false_of_not_eq_true hb) ht

/-- A reset event leaves a state that meets the invariant, whatever came before (R270). -/
theorem resetEngine_inv (s : State) : Inv (resetEngine s) := by
  refine .of_idle rfl (resetEngine_idle s) fun l hl => ?_
  rw [resetEngine_lanes] at hl
  obtain ⟨k, a, rfl⟩ := mem_resetLanesFrom hl
  exact fun _ => ⟨rfl, rfl⟩

/-- Settles O52: a reset event by `resetEngine_inv`, the turn of any lane by `laneStep_keeps_inv`. -/
theorem stepKeepsInvariant : Obligations.StepKeepsInvariant := by
  intro s t h ht
  obtain ⟨rest, -, hs⟩ | ⟨u, hs, hl, hw, hk, -⟩ := step_cases s
  · cases hs.symm.trans ht
    exact resetEngine_inv _
  · exact laneStep_keeps_inv (h.congr hl hw hk) (hs.symm.trans ht)

/-! ## The state after reset -/

/-- Every lane of the state after reset is at its reset values (R270). -/
theorem mem_lanes_resetLanes {n : Nat} {l : Lane} (h : l ∈ (State.resetLanes n).lanes) : ∃ k, l = Lane.resetAt k := by
  simp only [State.lanes, State.resetLanes, List.nil_append, List.mem_cons, List.mem_map] at h
  obtain rfl | ⟨k, -, rfl⟩ := h
  · exact ⟨0, rfl⟩
  · exact ⟨k + 1, rfl⟩

/-- No word of `W` holds a value after reset (R35, R270). -/
theorem resetW_value? (j : Fin 44) : resetW[j].value? = none := by simp [resetW]

/-- Settles O49: the values of `Lane.resetAt` and `resetW`. -/
theorem resetValues : Obligations.ResetValues := by
  refine ⟨fun n => ⟨?_, rfl, resetW_value?, fun l hl => ?_⟩, rfl⟩
  · simp [State.lanes, State.resetLanes]
  · obtain ⟨k, rfl⟩ := mem_lanes_resetLanes hl
    exact ⟨rfl, rfl, rfl, rfl, rfl⟩

/-- Settles O51: after reset every lane is idle at its values and KEY_VALID is 0. -/
theorem resetMeetsInvariant : Obligations.ResetMeetsInvariant := by
  refine fun n => .of_idle rfl (fun l hl => ?_) fun l hl => ?_ <;> obtain ⟨k, rfl⟩ := mem_lanes_resetLanes hl
  · rfl
  · exact fun _ => ⟨rfl, rfl⟩

end Sys2Proof.Machine
end

section
/-! PROOFS. The lanes share nothing that a block transform changes: its micro-steps read `W` and their own lane and
write that lane only, so the turns of two lanes in block transforms commute (rules R34, R62, R211). -/

namespace Sys2Proof.Machine

/-! ## A micro-step of a block transform depends on W and the moving lane alone -/

/-- A round key is read from `W` alone (R25). -/
theorem readRoundKey_congr {s c : State} (hw : c.w = s.w) (r : Nat) : readRoundKey r c = readRoundKey r s := by
  simp only [readRoundKey, readW, hw]

/-- A State-to-State micro-operation is decided by the moving lane, and changes only that lane (R150). -/
theorem transform_local {f : Grid → Grid} {s c u : State} (hl : c.lane = s.lane) (hu : transform f s = .next u) :
    transform f c = .next { c with lane := u.lane } := by
  obtain ⟨g, hg, rfl⟩ := transform_next.1 hu
  exact transform_next.2 ⟨g, hl ▸ hg, by simp only [advance, writeGrid, hl]⟩

/-- A micro-operation of a block sequence is decided by `W` and the moving lane, and changes only that lane (R150). -/
theorem exec_local {i : Instr} {s c u : State} (hw : c.w = s.w) (hl : c.lane = s.lane)
    (hf : fitsEntry s.lane.upc i = true) (h84 : s.lane.upc.toNat < 84) (hu : exec i s = .next u) :
    exec i c = .next { c with lane := u.lane } := by
  cases i with
  | keyexp _ => cases hf
  | enc _ => cases hf
  | dec _ => cases hf
  | kxw n =>
    simp only [fitsEntry, decide_eq_true_eq] at hf
    omega
  | sub => exact transform_local hl hu
  | shr => exact transform_local hl hu
  | mix => exact transform_local hl hu
  | isub => exact transform_local hl hu
  | ishr => exact transform_local hl hu
  | imix => exact transform_local hl hu
  | ark r =>
    obtain ⟨hr, k, g, hk, hg, rfl⟩ := execArk_next.1 hu
    exact execArk_next.2 ⟨hr, k, g, (readRoundKey_congr hw _).trans hk, hl ▸ hg,
      by simp only [advance, writeGrid, hl]⟩
  | ldst =>
    obtain ⟨b, hb, hu⟩ := withValue_next.1 hu
    cases hu
    exact withValue_next.2 ⟨b, hl ▸ hb, by simp only [advance, writeGrid, hl]⟩
  | stst =>
    obtain ⟨g, hg, hu⟩ := withValue_next.1 hu
    cases hu
    exact withValue_next.2 ⟨g, hl ▸ hg, by simp only [advance, writeDout, hl]⟩

/-- The end of a micro-step that ends no key expansion is decided by the moving lane, and changes only that lane
(R205). -/
theorem complete_local {e : Ending} {s c t : State} (he : e ≠ .schedule) (hl : c.lane = s.lane)
    (ht : complete e s = .next t) : complete e c = .next { c with lane := t.lane } := by
  rcases complete_next.1 ht with ⟨rfl, rfl⟩ | ⟨rfl, b, hb, rfl⟩ | ⟨hs, -⟩
  · exact complete_next.2 (.inl ⟨rfl, by rw [← hl]⟩)
  · exact complete_next.2 (.inr (.inl ⟨rfl, b, hl ▸ hb, by simp only [respond, goIdle, hl]⟩))
  · exact absurd hs he

/-- No micro-operation of a block sequence ends a key expansion (R203, R205). -/
theorem ending_ne_schedule {upc : BitVec 7} {i : Instr} (hf : fitsEntry upc i = true) (h84 : upc.toNat < 84) :
    ending i ≠ .schedule := by
  cases i with
  | kxw n =>
    simp only [fitsEntry, decide_eq_true_eq] at hf
    omega
  | _ => exact Ending.noConfusion

/-- Over the words `w`, the step of a lane that holds `l` makes it `l'` and changes nothing else, whatever the other
lanes hold, whatever its number is and whatever the schedule names next. -/
def LaneMoves (w : Vector (Content Word) 44) (l l' : Lane) : Prop :=
  ∀ c : State, c.w = w → c.lane = l → laneStep c = .next { c with lane := l' }

/-- The step of a lane in a block transform depends on `W` and that lane alone, and changes that lane alone (R34,
R62). -/
theorem laneStep_local {s t : State} (hb : s.lane.busy = true) (h84 : s.lane.upc.toNat < 84)
    (ht : laneStep s = .next t) : LaneMoves s.w s.lane t.lane := by
  intro c hw hl
  rw [laneStep, if_pos hb] at ht
  rw [laneStep, if_pos (hl ▸ hb)]
  obtain ⟨i, u, hd, hu, hc⟩ := microStep_next.1 ht
  obtain ⟨i', hd', hf⟩ := fetch_fitsEntry s.lane.upc
  obtain rfl : i = i' := Except.ok.inj (hd.symm.trans hd')
  exact microStep_next.2 ⟨i, { c with lane := u.lane }, hl ▸ hd, exec_local hw hl hf h84 hu,
    complete_local (s := u) (ending_ne_schedule hf h84) rfl hc⟩

/-! ## The engine's step, seen by the numbers of the lanes -/

/-- Changing the moving lane changes the lane at its number (R34). -/
theorem lanes_with_lane (s : State) (l : Lane) : State.lanes { s with lane := l } = s.lanes.set s.laneNo l := by
  simp [State.lanes, State.laneNo]

/-- `t` is `s` but for the lanes, which are `ls`, for the schedule, of which `rest` is left, and for which lane moved
last. -/
structure LanesBecome (s : State) (ls : List Lane) (rest : List Event) (t : State) : Prop where
  lanes : t.lanes = ls
  w : t.w = s.w
  keyValid : t.keyValid = s.keyValid
  schedule : t.schedule = rest

theorem LanesBecome.trans {s u t : State} {ls ls' : List Lane} {rest rest' : List Event}
    (hu : LanesBecome s ls rest u) (ht : LanesBecome u ls' rest' t) : LanesBecome s ls' rest' t :=
  ⟨ht.lanes, ht.w.trans hu.w, ht.keyValid.trans hu.keyValid, ht.schedule⟩

/-- The turn of a lane that moves over `W` alone replaces that lane (R211). -/
theorem step_of_laneMoves {s : State} {k : Nat} {rest : List Event} {l l' : Lane}
    (hs : s.schedule = .turn k :: rest) (hk : s.lanes[k]? = some l) (hm : LaneMoves s.w l l') :
    ∃ t, step s = .next t ∧ LanesBecome s (s.lanes.set k l') rest t := by
  have hno : (focus k { s with schedule := rest }).laneNo = k := focus_laneNo (List.getElem?_eq_some_iff.1 hk).1
  refine ⟨_, (step_turn hs).trans (hm _ (focus_w _ _) (focus_lane hk)), ?_, focus_w _ _, focus_keyValid _ _,
    focus_schedule _ _⟩
  rw [lanes_with_lane, hno, focus_lanes]
  rfl

/-- Where the turn of a lane in a block transform gives a next state, the lane moves over `W` alone and is replaced
(R62, R211). -/
theorem laneMoves_of_step {s t : State} {k : Nat} {rest : List Event} {l : Lane} (hs : s.schedule = .turn k :: rest)
    (hk : s.lanes[k]? = some l) (hb : l.busy = true) (h84 : l.upc.toNat < 84) (ht : step s = .next t) :
    ∃ l', LaneMoves s.w l l' ∧ LanesBecome s (s.lanes.set k l') rest t := by
  have hl : (focus k { s with schedule := rest }).lane = l := focus_lane hk
  have hm := laneStep_local (hl ▸ hb) (hl ▸ h84) ((step_turn hs).symm.trans ht)
  rw [hl, focus_w] at hm
  obtain ⟨t', ht', become⟩ := step_of_laneMoves hs hk hm
  obtain rfl : t' = t := Host.Outcome.next.inj (ht'.symm.trans ht)
  exact ⟨_, hm, become⟩

/-! ## Two turns -/

/-- A run that gives a next state is a step that gives one, and the rest of the run from there. -/
theorem run_succ_next {n : Nat} {s t : State} :
    run (n + 1) s = .next t ↔ ∃ u, step s = .next u ∧ run n u = .next t := by
  rw [run]
  cases step s <;> simp

/-- A run of two steps is one step and then another. -/
theorem run_two_next {s t : State} : run 2 s = .next t ↔ ∃ u, step s = .next u ∧ step u = .next t :=
  run_succ_next.trans <| exists_congr fun u => and_congr_right fun _ =>
    (run_succ_next (n := 0)).trans (by simp [run])

/-- The turns of two lanes that move over `W` alone replace both (R211). -/
theorem run_two_of_laneMoves {s : State} {j k : Nat} {rest : List Event} {a a' b b' : Lane}
    (hs : s.schedule = .turn j :: .turn k :: rest) (hjk : j ≠ k) (hj : s.lanes[j]? = some a) (hk : s.lanes[k]? = some b)
    (ha : LaneMoves s.w a a') (hb : LaneMoves s.w b b') :
    ∃ t, run 2 s = .next t ∧ LanesBecome s ((s.lanes.set j a').set k b') rest t := by
  obtain ⟨u, hu, first⟩ := step_of_laneMoves hs hj ha
  have hk' : u.lanes[k]? = some b := by rw [first.lanes, List.getElem?_set_ne hjk, hk]
  obtain ⟨t, ht, second⟩ := step_of_laneMoves first.schedule hk' (first.w ▸ hb)
  exact ⟨t, run_two_next.2 ⟨u, hu, ht⟩, first.trans (first.lanes ▸ second)⟩

/-- Where the turns of two lanes in block transforms give a next state, both lanes move over `W` alone and are replaced:
the first turn leaves `W` and the second lane as they were (R62, R211). -/
theorem laneMoves_of_run_two {s t : State} {j k : Nat} {rest : List Event} {a b : Lane}
    (hs : s.schedule = .turn j :: .turn k :: rest) (hjk : j ≠ k) (hj : s.lanes[j]? = some a) (hk : s.lanes[k]? = some b)
    (ha : a.busy = true) (ha84 : a.upc.toNat < 84) (hb : b.busy = true) (hb84 : b.upc.toNat < 84)
    (ht : run 2 s = .next t) :
    ∃ a' b', LaneMoves s.w a a' ∧ LaneMoves s.w b b' ∧ LanesBecome s ((s.lanes.set j a').set k b') rest t := by
  obtain ⟨u, hu, ht⟩ := run_two_next.1 ht
  obtain ⟨a', ha', first⟩ := laneMoves_of_step hs hj ha ha84 hu
  have hk' : u.lanes[k]? = some b := by rw [first.lanes, List.getElem?_set_ne hjk, hk]
  obtain ⟨b', hb', second⟩ := laneMoves_of_step first.schedule hk' hb hb84 ht
  exact ⟨a', b', ha', first.w ▸ hb', first.trans (first.lanes ▸ second)⟩

/-- Settles O56: each turn replaces its own lane by one that `W` and that lane decide, and replacing the entries of a
list at two different numbers commutes. -/
theorem laneTurnsCommute : Obligations.LaneTurnsCommute := by
  intro s t j k a b rest hjk hj hk ha ha84 hb hb84 ht
  obtain ⟨a', b', ha', hb', jk⟩ :=
    laneMoves_of_run_two (s := { s with schedule := .turn j :: .turn k :: rest }) rfl hjk hj hk ha ha84 hb hb84 ht
  obtain ⟨u, hu, kj⟩ :=
    run_two_of_laneMoves (s := { s with schedule := .turn k :: .turn j :: rest }) rfl hjk.symm hk hj hb' ha'
  refine ⟨u, hu, ?_, kj.w.trans jk.w.symm, kj.keyValid.trans jk.keyValid.symm, kj.schedule.trans jk.schedule.symm⟩
  calc u.lanes = (s.lanes.set k b').set j a' := kj.lanes
    _ = (s.lanes.set j a').set k b' := List.set_comm _ _ hjk.symm
    _ = t.lanes := jk.lanes.symm

end Sys2Proof.Machine
end

section
/-! PROOFS. The two code spaces: what each decoder gives, in terms of the encoder and of the match and mask of the
opcode map, and the bytes that are reserved (rules R82, R84 to R89, R94). -/

namespace Sys2Proof

/-! ## The host command byte -/

/-- The three command codes, by a full 8-bit compare (R82). -/
theorem decodeH_ok_iff {cmd : Byte} {data : List Byte} {i : Instr} : decodeH cmd data = .ok i ↔
    (cmd = 0x01 ∧ i = .keyexp data) ∨ (cmd = 0x02 ∧ i = .enc data) ∨ (cmd = 0x03 ∧ i = .dec data) := by
  unfold decodeH
  split_ifs with h1 h2 h3
  · simp [h1, eq_comm]
  · simp [h2, eq_comm]
  · simp [h3, eq_comm]
  · simp only [h1, h2, h3, false_and, or_false]

/-- A byte that is none of the three codes is reserved (R89). -/
theorem decodeH_reserved_iff {cmd : Byte} {data : List Byte} :
    decodeH cmd data = .error (.reservedCommand cmd) ↔ cmd = 0x00 ∨ 0x04 ≤ cmd := by
  unfold decodeH
  split_ifs with h1 h2 h3
  · simp [h1]
  · simp [h2]
  · simp [h3]
  · refine iff_of_true rfl ?_
    bv_omega

/-- Settles O2: `decodeH_ok_iff`. -/
theorem hostCommandCodes : Obligations.HostCommandCodes := fun _ _ _ => decodeH_ok_iff

/-! ## The fields of a micro-operation word -/

/-- The class is the word's upper two bits (R84). -/
theorem toNat_cls (word : Byte) : (cls word).toNat = word.toNat / 64 := by
  rw [cls, BitVec.extractLsb'_toNat, Nat.shiftRight_eq_div_pow]
  omega

/-- The words of a class are 64 neighbours (R84). -/
theorem cls_eq_iff {word : Byte} {c : BitVec 2} : cls word = c ↔ word.toNat / 64 = c.toNat := by
  rw [← BitVec.toNat_inj, toNat_cls]

/-- The argument is the word's lower six bits (R84). -/
theorem toNat_arg (word : Byte) : (arg word).toNat = word.toNat % 64 := by
  simp [arg]

/-- The bits `arg[5:4]` (R84). -/
theorem toNat_extractLsb'_arg (word : Byte) : ((arg word).extractLsb' 4 2).toNat = word.toNat / 16 % 4 := by
  rw [BitVec.extractLsb'_toNat, toNat_arg, Nat.shiftRight_eq_div_pow]
  omega

/-- The match and mask of ARK are the tests on the class and on `arg[5:4]` (R84, R86). -/
theorem and_arkMask_iff (word : Byte) :
    word &&& 0xF0 = 0x40 ↔ cls word = 0b01 ∧ (arg word).extractLsb' 4 2 = 0 := by
  revert word; decide

/-- The match and mask of KXW are the test on the class (R84, R87). -/
theorem and_kxwMask_iff (word : Byte) : word &&& 0xC0 = 0x80 ↔ cls word = 0b10 := by
  revert word; decide

/-- A word is its upper four bits and its lower four. -/
theorem and_upper4_or_lower4 (word : Byte) : (word &&& 0xF0) ||| (word.extractLsb' 0 4).setWidth 8 = word := by
  revert word; decide

/-- A word is its upper two bits and its lower six. -/
theorem and_upper2_or_arg (word : Byte) : (word &&& 0xC0) ||| (arg word).setWidth 8 = word := by
  revert word; decide

/-- The low four bits of the word of `ARK r` are `r` (R86). -/
theorem extractLsb'_encode_ark (r : BitVec 4) : (encode (.ark r)).extractLsb' 0 4 = r := by
  revert r; decide

/-- The argument of the word of `KXW i` is `i` (R87). -/
theorem arg_encode_kxw (i : BitVec 6) : arg (encode (.kxw i)) = i := by
  revert i; decide

/-! ## The classes of the micro-operation decoder -/

theorem decodeU_class00 {word : Byte} (h : cls word = 0b00) : decodeU word = decodeClass00 word := by
  simp [decodeU, h]

theorem decodeU_class01 {word : Byte} (h : cls word = 0b01) : decodeU word = decodeClass01 word := by
  simp [decodeU, h]

theorem decodeU_class10 {word : Byte} (h : cls word = 0b10) : decodeU word = decodeClass10 word := by
  simp [decodeU, h]

theorem decodeU_class11 {word : Byte} (h : cls word = 0b11) : decodeU word = .error (.reservedMicroOp word) := by
  simp [decodeU, h]

/-- Every word is of one of the four classes (R84). -/
theorem cls_cases (word : Byte) : cls word = 0b00 ∨ cls word = 0b01 ∨ cls word = 0b10 ∨ cls word = 0b11 := by
  generalize cls word = c
  revert c; decide

/-- `i` is a well-formed micro-operation with the word `word` (R94). -/
structure EncodesTo (i : Instr) (word : Byte) : Prop where
  format : i.format = .U
  wellFormed : i.wellFormed = true
  word : encode i = word

/-- The words of `ARK r`, by match, mask and operand field (R86). -/
theorem encodesTo_ark_iff {r : BitVec 4} {word : Byte} :
    EncodesTo (.ark r) word ↔ word &&& 0xF0 = 0x40 ∧ r = word.extractLsb' 0 4 ∧ r.toNat ≤ 10 := by
  constructor
  · rintro ⟨-, hr, rfl⟩
    exact ⟨(Laws.WordMatchesRow.ark r hr).1, (extractLsb'_encode_ark r).symm, of_decide_eq_true hr⟩
  · rintro ⟨hm, rfl, hr⟩
    exact ⟨rfl, decide_eq_true hr, by rw [encode, ← hm, and_upper4_or_lower4]⟩

/-- The words of `KXW i`, by match, mask and operand field (R87). -/
theorem encodesTo_kxw_iff {i : BitVec 6} {word : Byte} :
    EncodesTo (.kxw i) word ↔ word &&& 0xC0 = 0x80 ∧ i = arg word ∧ i.toNat ≤ 43 := by
  constructor
  · rintro ⟨-, hi, rfl⟩
    exact ⟨(Laws.WordMatchesRow.kxw i hi).1, (arg_encode_kxw i).symm, Nat.le_of_lt_succ (of_decide_eq_true hi)⟩
  · rintro ⟨hm, rfl, hi⟩
    exact ⟨rfl, decide_eq_true (Nat.lt_succ_of_le hi), by rw [encode, ← hm, and_upper2_or_arg]⟩

/-- What class `00` decodes to has that word (R85). -/
theorem encodesTo_of_decodeClass00 {word : Byte} {i : Instr} (h : decodeClass00 word = .ok i) : EncodesTo i word := by
  unfold decodeClass00 at h
  split_ifs at h with hw hw hw hw hw hw hw hw <;> (cases h; exact ⟨rfl, rfl, hw.symm⟩)

/-- What class `01` decodes to has that word (R86). -/
theorem encodesTo_of_decodeClass01 {word : Byte} {i : Instr} (hc : cls word = 0b01)
    (h : decodeClass01 word = .ok i) : EncodesTo i word := by
  unfold decodeClass01 at h
  split_ifs at h with hw
  obtain ⟨ha, hr⟩ := hw
  cases h
  exact encodesTo_ark_iff.2 ⟨(and_arkMask_iff word).2 ⟨hc, ha⟩, rfl, hr⟩

/-- What class `10` decodes to has that word (R87). -/
theorem encodesTo_of_decodeClass10 {word : Byte} {i : Instr} (hc : cls word = 0b10)
    (h : decodeClass10 word = .ok i) : EncodesTo i word := by
  unfold decodeClass10 at h
  split_ifs at h with hi
  cases h
  exact encodesTo_kxw_iff.2 ⟨(and_kxwMask_iff word).2 hc, rfl, Nat.le_of_lt_succ hi⟩

/-- Encoding inverts decoding: what decodes is a well-formed micro-operation with the word it was read from (R94). -/
theorem encodesTo_of_decodeU {word : Byte} {i : Instr} (h : decodeU word = .ok i) : EncodesTo i word := by
  obtain hc | hc | hc | hc := cls_cases word
  · exact encodesTo_of_decodeClass00 (decodeU_class00 hc ▸ h)
  · exact encodesTo_of_decodeClass01 hc (decodeU_class01 hc ▸ h)
  · exact encodesTo_of_decodeClass10 hc (decodeU_class10 hc ▸ h)
  · cases (decodeU_class11 hc).symm.trans h

/-- Decoding inverts encoding: the word of a well-formed micro-operation decodes to it (R94). -/
theorem decodeU_of_encodesTo {word : Byte} {i : Instr} (h : EncodesTo i word) : decodeU word = .ok i := by
  cases i with
  | keyexp _ => cases h.format
  | enc _ => cases h.format
  | dec _ => cases h.format
  | ark r =>
    obtain ⟨hm, rfl, hr⟩ := encodesTo_ark_iff.1 h
    obtain ⟨hc, ha⟩ := (and_arkMask_iff word).1 hm
    rw [decodeU_class01 hc]
    exact if_pos ⟨ha, hr⟩
  | kxw i =>
    obtain ⟨hm, rfl, hi⟩ := encodesTo_kxw_iff.1 h
    rw [decodeU_class10 ((and_kxwMask_iff word).1 hm)]
    exact if_pos (Nat.lt_succ_of_le hi)
  | _ => rw [← h.word]; rfl

/-- A word decodes to exactly the well-formed micro-operation it is the word of (R94). -/
theorem decodeU_ok_iff {word : Byte} {i : Instr} : decodeU word = .ok i ↔ EncodesTo i word :=
  ⟨encodesTo_of_decodeU, decodeU_of_encodesTo⟩

/-- Settles O1: `decodeH_ok_iff` in the host's code space, `decodeU_ok_iff` in the micro-program's. -/
theorem decodeInvertsEncode : Obligations.DecodeInvertsEncode := by
  refine ⟨fun i hwf => ?_, fun f word data i h => ?_⟩
  · cases i with
    | keyexp _ => rfl
    | enc _ => rfl
    | dec _ => rfl
    | _ => exact decodeU_ok_iff.2 ⟨rfl, hwf, rfl⟩
  · cases f with
    | H => obtain ⟨rfl, rfl⟩ | ⟨rfl, rfl⟩ | ⟨rfl, rfl⟩ := decodeH_ok_iff.1 h <;> exact ⟨rfl, rfl, rfl, fun _ => rfl⟩
    | U =>
      obtain ⟨hf, hwf, hw⟩ := decodeU_ok_iff.1 h
      exact ⟨hwf, hf, hw, fun hH => by cases hH⟩

/-! ## The reserved words -/

/-- The reserved words of class `00`: 0x00 and those from 0x09 (R85). -/
theorem decodeClass00_reserved_iff {word : Byte} :
    decodeClass00 word = .error (.reservedMicroOp word) ↔ word = 0x00 ∨ 0x09 ≤ word := by
  unfold decodeClass00
  split_ifs with h1 h2 h3 h4 h5 h6 h7 h8
  case neg =>
    refine iff_of_true rfl ?_
    bv_omega
  all_goals
    refine iff_of_false not_false ?_
    bv_omega

/-- The reserved words of class `01`: those from 0x4B, where `arg[5:4]` is not `00` or the index is above 10 (R86). -/
theorem decodeClass01_reserved_iff {word : Byte} (hc : cls word = 0b01) :
    decodeClass01 word = .error (.reservedMicroOp word) ↔ 0x4B ≤ word := by
  rw [cls_eq_iff] at hc
  have hhigh := toNat_extractLsb'_arg word
  have hlow := word.extractLsb'_toNat 0 4
  unfold decodeClass01 Config.rounds
  split_ifs with h
  · refine iff_of_false not_false ?_
    bv_omega
  · refine iff_of_true rfl ?_
    bv_omega

/-- The reserved words of class `10`: those from 0xAC, where the index is above 43 (R87). -/
theorem decodeClass10_reserved_iff {word : Byte} (hc : cls word = 0b10) :
    decodeClass10 word = .error (.reservedMicroOp word) ↔ 0xAC ≤ word := by
  rw [cls_eq_iff] at hc
  unfold decodeClass10 Config.keyWords
  rw [toNat_arg]
  split_ifs with h
  · refine iff_of_false not_false ?_
    bv_omega
  · refine iff_of_true rfl ?_
    bv_omega

/-- The reserved words, class by class (R88). -/
theorem decodeU_reserved_iff {word : Byte} : decodeU word = .error (.reservedMicroOp word) ↔
    word = 0x00 ∨ (0x09 ≤ word ∧ word ≤ 0x3F) ∨ (0x4B ≤ word ∧ word ≤ 0x7F) ∨ 0xAC ≤ word := by
  obtain hc | hc | hc | hc := cls_cases word <;> have hrange := cls_eq_iff.1 hc
  · rw [decodeU_class00 hc, decodeClass00_reserved_iff]
    bv_omega
  · rw [decodeU_class01 hc, decodeClass01_reserved_iff hc]
    bv_omega
  · rw [decodeU_class10 hc, decodeClass10_reserved_iff hc]
    bv_omega
  · refine iff_of_true (decodeU_class11 hc) ?_
    bv_omega

/-- Settles O5: `decodeU_reserved_iff` and `decodeH_reserved_iff`. -/
theorem reservedBytesRefused : Obligations.ReservedBytesRefused :=
  ⟨fun _ => decodeU_reserved_iff, fun _ _ => decodeH_reserved_iff⟩

/-! ## The operations with an operand -/

/-- Settles O3: the words of `ARK r` by `encodesTo_ark_iff`, the reserved ones by `decodeU_reserved_iff`. -/
theorem arkEncoding : Obligations.ArkEncoding :=
  ⟨fun _ _ => rfl, fun _ _ => decodeU_ok_iff.trans encodesTo_ark_iff,
    fun _ low high => decodeU_reserved_iff.2 (.inr (.inr (.inl ⟨low, high⟩)))⟩

/-- Settles O4: the words of `KXW i` by `encodesTo_kxw_iff`, the reserved ones by `decodeU_reserved_iff`. -/
theorem kxwEncoding : Obligations.KxwEncoding :=
  ⟨fun _ _ => rfl, fun _ _ => decodeU_ok_iff.trans encodesTo_kxw_iff,
    fun _ low _ => decodeU_reserved_iff.2 (.inr (.inr (.inr low)))⟩

/-! ## Words written out -/

/-- Settles O6: each word is the encoding of its operation, a command by `decodeH_ok_iff`, a micro-operation by
`decodeU_ok_iff`. -/
theorem writtenOutWordsDecode : Obligations.WrittenOutWordsDecode := by
  refine ⟨decodeH_ok_iff.2 (.inl ⟨rfl, rfl⟩), decodeH_ok_iff.2 (.inr (.inr ⟨rfl, rfl⟩)), ?_, ?_, ?_, ?_, ?_, ?_⟩ <;>
    exact decodeU_ok_iff.2 ⟨rfl, rfl, rfl⟩

end Sys2Proof
end

section
/-! PROOFS. An operand outside the range its encoding has stops the micro-operation (rules R86 to R88). -/

namespace Sys2Proof.Machine

/-- `ARK r` with `r` above 10 is BadMicroOp (R86, R88). -/
theorem execArk_of_gt {r : BitVec 4} (h : 10 < r.toNat) (s : State) : execArk r s = .fault .badMicroOp :=
  if_neg (Nat.not_le_of_lt h)

/-- `KXW i` with `i` above 43 is BadMicroOp (R87, R88). -/
theorem execKxw_of_gt {i : BitVec 6} (h : 43 < i.toNat) (s : State) : execKxw i s = .fault .badMicroOp :=
  if_neg (Nat.not_lt_of_le h)

/-- Settles O29: `execArk_of_gt` and `execKxw_of_gt`. -/
theorem outOfRangeOperandsFault : Obligations.OutOfRangeOperandsFault :=
  fun s => ⟨fun _ h => execArk_of_gt h s, fun _ h => execKxw_of_gt h s⟩

end Sys2Proof.Machine
end

section
/-! PROOFS. The field of the multiplier: `xtime` bit by bit, `gfmul` as a sum of doublings, and the laws of the product.
A map of the Bytes that commutes with exclusive-or and with `xtime` is a multiplication; commutativity and associativity
are two instances of that (rules R110 to R115). -/

namespace Sys2Proof.Machine

/-! ## xtime, and the maps that commute with it -/

/-- Bit by bit: the shift, and the reduction where bit 7 was set (R111). -/
theorem getLsbD_xtime (a : Byte) (i : Nat) :
    (xtime a).getLsbD i = ((a <<< 1).getLsbD i ^^ (a.getLsbD 7 && (0x1B : Byte).getLsbD i)) := by
  unfold xtime
  split
  case isTrue h => rw [BitVec.getLsbD_xor, h, Bool.true_and]
  case isFalse h => rw [Bool.eq_false_of_not_eq_true h, Bool.false_and, Bool.xor_false]

/-- `xtime` is additive, as the shift and the reduction are (R111). -/
theorem xtime_xor (a b : Byte) : xtime (a ^^^ b) = xtime a ^^^ xtime b := by
  apply BitVec.eq_of_getLsbD_eq
  intro i _
  simp only [getLsbD_xtime, BitVec.shiftLeft_xor_distrib, BitVec.getLsbD_xor, Bool.and_xor_distrib_right,
    Bool.xor_assoc, Bool.xor_left_comm]

/-- A map of the Bytes that respects addition and the product with x (R110). -/
structure XLinear (f : Byte → Byte) : Prop where
  map_xor (a b : Byte) : f (a ^^^ b) = f a ^^^ f b
  map_xtime (a : Byte) : f (xtime a) = xtime (f a)

theorem xLinear_xtime : XLinear xtime := ⟨xtime_xor, fun _ => rfl⟩

namespace XLinear

variable {f : Byte → Byte} (hf : XLinear f)
include hf

theorem map_zero : f 0x00 = 0x00 := by
  simpa using hf.map_xor 0x00 0x00

theorem map_xpow (a : Byte) (n : Nat) : f (xpow a n) = xpow (f a) n := by
  induction n with
  | zero => rfl
  | succ n ih => rw [xpow, xpow, hf.map_xtime, ih]

/-- The loop of `gfmul` commutes with such a map: its iterations only add and double. -/
theorem map_foldl_gfmulStep (b : Byte) (ks : List Nat) (p a : Byte) :
    f (ks.foldl (gfmulStep b) (p, a)).1 = (ks.foldl (gfmulStep b) (f p, f a)).1 := by
  induction ks generalizing p a with
  | nil => rfl
  | cons k ks ih =>
    rw [List.foldl_cons, List.foldl_cons, gfmulStep, gfmulStep, ih, hf.map_xtime, apply_ite f, hf.map_xor]

/-- Such a map moves into a product, so it is the multiplication by its value at 0x01. -/
theorem map_gfmul (a b : Byte) : f (gfmul a b) = gfmul (f a) b := by
  rw [gfmul, hf.map_foldl_gfmulStep, hf.map_zero, gfmul]

end XLinear

/-! ## gfmul as a sum -/

/-- One iteration as an addition, of 0x00 where the bit of `b` is clear (R113). -/
theorem gfmulStep_eq (b p a : Byte) (k : Nat) :
    gfmulStep b (p, a) k = (p ^^^ (if b.getLsbD k then a else 0x00), xtime a) := by
  rw [gfmulStep]
  split <;> simp

/-- The loop of `gfmul` after `n` iterations: the sum so far, and the next doubling (R112, R113). -/
theorem foldl_gfmulStep_range (a b : Byte) (n : Nat) : (List.range n).foldl (gfmulStep b) (0, a) =
    (((List.range n).map fun k => if b.getLsbD k then xpow a k else 0).foldl (· ^^^ ·) 0, xpow a n) := by
  induction n with
  | zero => rfl
  | succ n ih =>
    rw [List.range_succ, List.foldl_append, ih, List.map_append, List.foldl_append]
    exact gfmulStep_eq ..

/-- Settles O9: `foldl_gfmulStep_range` after the eight iterations. -/
theorem gfmulCombinational : Obligations.GfmulCombinational :=
  ⟨fun a b => congrArg Prod.fst (foldl_gfmulStep_range a b 8), by decide⟩

/-! ## The laws of the product -/

/-- Every Byte is the sum of the powers of x at its set bits. -/
theorem one_gfmul (b : Byte) : gfmul 0x01 b = b := by
  revert b; decide

/-- The loop of `gfmul` is additive in its accumulator and doubled operand together. -/
theorem foldl_gfmulStep_xor (c : Byte) (ks : List Nat) (p q a b : Byte) :
    (ks.foldl (gfmulStep c) (p ^^^ q, a ^^^ b)).1 =
      (ks.foldl (gfmulStep c) (p, a)).1 ^^^ (ks.foldl (gfmulStep c) (q, b)).1 := by
  induction ks generalizing p q a b with
  | nil => rfl
  | cons k ks ih =>
    simp only [List.foldl_cons, gfmulStep, xtime_xor, ← ih]
    split
    · ac_rfl
    · rfl

theorem xLinear_gfmul_left (b : Byte) : XLinear (gfmul · b) where
  map_xor := foldl_gfmulStep_xor b _ 0 0
  map_xtime a := (xLinear_xtime.map_gfmul a b).symm

/-- The product with `b` moves into `gfmul 0x01 a`, which is `a` (R114). -/
theorem gfmul_comm (a b : Byte) : gfmul a b = gfmul b a :=
  calc gfmul a b
    _ = gfmul (gfmul 0x01 a) b := by rw [one_gfmul]
    _ = gfmul (gfmul 0x01 b) a := (xLinear_gfmul_left b).map_gfmul 0x01 a
    _ = gfmul b a := by rw [one_gfmul]

theorem xLinear_gfmul_right (a : Byte) : XLinear (gfmul a) := by
  rw [show gfmul a = (gfmul · a) from funext (gfmul_comm a)]
  exact xLinear_gfmul_left a

/-- The product with `a` moves into `gfmul b c` (R114). -/
theorem gfmul_assoc (a b c : Byte) : gfmul a (gfmul b c) = gfmul (gfmul a b) c :=
  (xLinear_gfmul_right a).map_gfmul b c

theorem gfmul_one (a : Byte) : gfmul a 0x01 = a := by
  rw [gfmul_comm, one_gfmul]

theorem gfmul_zero (a : Byte) : gfmul a 0x00 = 0x00 := (xLinear_gfmul_right a).map_zero

/-! ## Inverses -/

/-- The inverse of a non-zero Byte, read off `SBOX`: the affine step of its generating rule undone (R131). -/
def gfInverse (a : Byte) : Byte :=
  (sbox a).rotateLeft 1 ^^^ (sbox a).rotateLeft 3 ^^^ (sbox a).rotateLeft 6 ^^^ 0x05

theorem gfmul_gfInverse : ∀ a : Byte, a ≠ 0x00 → gfmul a (gfInverse a) = 0x01 := by decide

/-- Division: a product determines its second factor (R114). -/
theorem gfInverse_gfmul_gfmul {a : Byte} (ha : a ≠ 0x00) (b : Byte) : gfmul (gfInverse a) (gfmul a b) = b := by
  rw [gfmul_assoc, gfmul_comm (gfInverse a), gfmul_gfInverse a ha, one_gfmul]

/-! ## The order of x -/

/-- `n` doublings are the product with the power of x. -/
theorem gfmul_xpow_one (a : Byte) (n : Nat) : gfmul a (xpow 0x01 n) = xpow a n := by
  rw [(xLinear_gfmul_right a).map_xpow, gfmul_one]

theorem xpow_eq_iterate (a : Byte) (n : Nat) : xpow a n = xtime^[n] a := by
  induction n with
  | zero => rfl
  | succ n ih => rw [xpow, ih, Function.iterate_succ_apply']

theorem xpow_one_51 : xpow 0x01 51 = 0x01 := by
  simp [xpow, xtime]

theorem xpow_51 (a : Byte) : xpow a 51 = a := by
  rw [← gfmul_xpow_one, xpow_one_51, gfmul_one]

/-- The powers of x that are one are the multiples of its order. -/
theorem xpow_one_eq_one_iff {n : Nat} : xpow 0x01 n = 0x01 ↔ Function.minimalPeriod xtime 0x01 ∣ n := by
  rw [xpow_eq_iterate]
  exact Function.isPeriodicPt_iff_minimalPeriod_dvd

/-- The order of x divides 51 = 3 * 17, and neither x^3 nor x^17 is one (R114). -/
theorem minimalPeriod_xtime_one : Function.minimalPeriod xtime 0x01 = 51 := by
  have hdivisors : ∀ d ∈ Nat.divisors 51, d ∣ 3 ∨ d ∣ 17 ∨ d = 51 := by decide
  obtain h3 | h17 | h51 := hdivisors _ (Nat.mem_divisors.2 ⟨xpow_one_eq_one_iff.1 xpow_one_51, by decide⟩)
  · exact absurd (xpow_one_eq_one_iff.2 h3) (by decide)
  · exact absurd (xpow_one_eq_one_iff.2 h17) (by decide)
  · exact h51

theorem xpow_one_ne_one {n : Nat} (hpos : 0 < n) (hlt : n < 51) : xpow 0x01 n ≠ 0x01 := fun h =>
  Nat.not_le_of_lt hlt (Nat.le_of_dvd hpos (minimalPeriod_xtime_one ▸ xpow_one_eq_one_iff.1 h))

/-- Settles O10: the product is a field multiplication, and x has order 51. -/
theorem gfmulFieldLaws : Obligations.GfmulFieldLaws := by
  refine ⟨gfmul_comm, gfmul_assoc, fun a => (xLinear_gfmul_right a).map_xor, gfmul_one, gfmul_zero,
    fun a b hab => or_iff_not_imp_left.2 fun ha => ?_,
    fun a ha => ⟨gfInverse a, gfmul_gfInverse a ha, fun c hc => ?_⟩,
    xpow_51, fun _ => xpow_one_ne_one⟩
  · rw [← gfInverse_gfmul_gfmul ha b, hab, gfmul_zero]
  · rw [← gfInverse_gfmul_gfmul ha c, hc, gfmul_one]

/-! ## xtime, a bijection -/

/-- `xtime` is a bijection: 50 more doublings undo it, on either side (R111, R114). -/
theorem bijective_xtime : Function.Bijective xtime :=
  Function.bijective_iff_has_inverse.2
    ⟨(xpow · 50), fun a => (xLinear_xtime.map_xpow a 50).symm.trans (xpow_51 a), xpow_51⟩

/-- Settles O8: `getLsbD_xtime` at the eight bits, and `bijective_xtime`; the values by evaluation. -/
theorem xtimeBitByBit : Obligations.XtimeBitByBit :=
  ⟨fun a => by simp [getLsbD_xtime, -BitVec.getLsbD_eq_getElem],
    by decide, by decide, by decide, by decide, by decide, by decide, by decide, by decide, bijective_xtime⟩

/-! ## The constant multipliers -/

/-- Settles O11: each constant is a sum of doublings of the one element, and the product with `v` keeps sums and
doublings. -/
theorem constantMultipliers : Obligations.ConstantMultipliers := by
  intro v
  have hxor := (xLinear_gfmul_left v).map_xor
  have hxtime := (xLinear_gfmul_left v).map_xtime
  have h02 : (0x02 : Byte) = xtime 0x01 := by decide
  have h03 : (0x03 : Byte) = xtime 0x01 ^^^ 0x01 := by decide
  have h09 : (0x09 : Byte) = xtime (xtime (xtime 0x01)) ^^^ 0x01 := by decide
  have h0B : (0x0B : Byte) = xtime (xtime (xtime 0x01)) ^^^ xtime 0x01 ^^^ 0x01 := by decide
  have h0D : (0x0D : Byte) = xtime (xtime (xtime 0x01)) ^^^ xtime (xtime 0x01) ^^^ 0x01 := by decide
  have h0E : (0x0E : Byte) = xtime (xtime (xtime 0x01)) ^^^ xtime (xtime 0x01) ^^^ xtime 0x01 := by decide
  simp only [h02, h03, h09, h0B, h0D, h0E, hxor, hxtime, one_gfmul, and_self]

end Sys2Proof.Machine
end

section
/-! PROOFS. The substitution tables and the round constants: `SBOX` from its generating rule, `ISBOX` its inverse on
either side, and `RCON` one doubling from entry to entry (rules R130 to R137). -/

namespace Sys2Proof.Machine

/-! ## The generating rule -/

/-- The rotations and the constant of `gfInverse` undo the affine step, whatever the table holds (R131). -/
theorem sboxAffine_rotations (s : Byte) :
    sboxAffine (s.rotateLeft 1 ^^^ s.rotateLeft 3 ^^^ s.rotateLeft 6 ^^^ 0x05) = s := by
  revert s; decide

theorem sboxAffine_gfInverse (a : Byte) : sboxAffine (gfInverse a) = sbox a := sboxAffine_rotations (sbox a)

theorem zero_gfmul (b : Byte) : gfmul 0x00 b = 0x00 := (xLinear_gfmul_left b).map_zero

/-- Only `gfInverse a` is an inverse of `a` (R114). -/
theorem eq_gfInverse_of_gfmul_eq_one {a y : Byte} (h : gfmul a y = 0x01) : y = gfInverse a := by
  have ha : a ≠ 0x00 := by
    rintro rfl
    exact absurd ((zero_gfmul y).symm.trans h) (by decide)
  rw [← gfInverse_gfmul_gfmul ha y, h, gfmul_one]

/-- Settles O13: a field inverse is `gfInverse`, whose affine step is the entry of `SBOX`. -/
theorem sboxGeneratingRule : Obligations.SboxGeneratingRule := by
  refine ⟨by decide, fun a y h => ?_⟩
  rw [eq_gfInverse_of_gfmul_eq_one h, sboxAffine_gfInverse]

/-! ## The inverse table -/

theorem isbox_sbox : Function.LeftInverse isbox sbox := by
  unfold Function.LeftInverse; decide

/-- An injective map of the 256 Bytes is onto (R133 (c)). -/
theorem bijective_sbox : Function.Bijective sbox :=
  Finite.injective_iff_bijective.1 isbox_sbox.injective

theorem sbox_isbox : Function.RightInverse isbox sbox :=
  isbox_sbox.rightInverse_of_surjective bijective_sbox.surjective

/-- `SBOX` moves every Byte, and none to its complement (R133). -/
theorem sbox_ne_self_and_ne_complement : ∀ a : Byte, sbox a ≠ a ∧ sbox a ≠ a ^^^ 0xFF := by decide

/-- Settles O12: `ISBOX` undoes `SBOX` by evaluation; the other order and the permutations follow by counting. -/
theorem substitutionTablesInverse : Obligations.SubstitutionTablesInverse :=
  ⟨isbox_sbox, sbox_isbox, bijective_sbox, ⟨sbox_isbox.injective, isbox_sbox.surjective⟩,
    sbox_ne_self_and_ne_complement⟩

/-! ## The round constants -/

/-- From `RCON[1]` to `RCON[10]`, each entry is the one before it doubled (R135). -/
theorem rcon_add_two : ∀ k < 9, rcon (BitVec.ofNat 8 (k + 2)) = xtime (rcon (BitVec.ofNat 8 (k + 1))) := by
  decide

theorem rcon_add_one_eq_xpow {k : Nat} (hk : k < 10) : rcon (BitVec.ofNat 8 (k + 1)) = xpow 0x01 k := by
  induction k with
  | zero => decide
  | succ k ih => rw [rcon_add_two k (Nat.lt_of_succ_lt_succ hk), ih (Nat.lt_of_succ_lt hk), xpow]

/-- Settles O14: `rcon_add_one_eq_xpow`, where n = k + 1. -/
theorem roundConstantsArePowers : Obligations.RoundConstantsArePowers := by
  intro n hpos hle
  obtain ⟨k, rfl⟩ := Nat.exists_eq_add_of_le' hpos
  exact rcon_add_one_eq_xpow hle

end Sys2Proof.Machine
end

section
/-! PROOFS. The round transforms as maps of the State matrix: `mixcol` as a matrix product over the field of the
multiplier, each transform undone by its inverse, and the two commutations (rules R157, R161 to R163). -/

namespace Sys2Proof.Machine

/-! ## The products with zero and one, as `simp` spells the two constants -/

@[simp] theorem ofNat_zero_gfmul (b : Byte) : gfmul 0#8 b = 0#8 := zero_gfmul b
@[simp] theorem ofNat_one_gfmul (b : Byte) : gfmul 1#8 b = b := one_gfmul b

/-! ## mixcol as a matrix product -/

/-- The matrix-by-column product is additive in the column, entry by entry, as the product of Bytes is (R114, R157). -/
theorem mixEntry_xorWord (m : Matrix4) (u v : Word) (i : Fin 4) :
    mixEntry m (xorWord u v) i = mixEntry m u i ^^^ mixEntry m v i := by
  simp only [mixEntry, wordByte_xorWord, (xLinear_gfmul_right _).map_xor]
  ac_rfl

/-- Settles O15: `mixEntry_xorWord` at each entry. -/
theorem mixcolLinear : Obligations.MixcolLinear := fun m u v => word_ext fun i => by
  rw [wordByte_mixcol, wordByte_xorWord, wordByte_mixcol, wordByte_mixcol, mixEntry_xorWord]

/-- Column products associate: `mixGridWith m n`, each column of `n` multiplied by `m`, is the matrix product (R157). -/
theorem mixEntry_mixcol (m n : Matrix4) (v : Word) (i : Fin 4) :
    mixEntry m (mixcol n v) i = mixEntry (mixGridWith m n) v i := by
  simp only [mixEntry, wordByte_mixcol, cell_mixGridWith, wordByte_column, gfmul_assoc,
    (xLinear_gfmul_right _).map_xor, (xLinear_gfmul_left _).map_xor]
  ac_rfl

/-- A column of a product is the product of the column (R157). -/
theorem column_mixGridWith (m : Matrix4) (g : Grid) (col : Fin 4) :
    column (mixGridWith m g) col = mixcol m (column g col) := word_ext fun row => by
  rw [wordByte_column, cell_mixGridWith, wordByte_mixcol]

/-- Multiplying the columns by `n` and then by `m` is multiplying them by the product of the matrices (R157). -/
theorem mixGridWith_mixGridWith (m n : Matrix4) (g : Grid) :
    mixGridWith m (mixGridWith n g) = mixGridWith (mixGridWith m n) g := grid_ext fun row col => by
  rw [cell_mixGridWith, column_mixGridWith, mixEntry_mixcol, cell_mixGridWith]

/-- The identity matrix over the field of the multiplier (R162). -/
def identityM : Matrix4 := gridOf fun i j => if i = j then 0x01 else 0x00

theorem mixEntry_identityM (v : Word) (i : Fin 4) : mixEntry identityM v i = wordByte v i := by
  simp only [mixEntry, identityM, cell_gridOf]
  fin_cases i <;> simp

theorem mixGridWith_identityM (g : Grid) : mixGridWith identityM g = g := grid_ext fun row col => by
  rw [cell_mixGridWith, mixEntry_identityM, wordByte_column]

/-! ## The two matrices -/

/-- Settles O16: the 32 entries of the two products and the 32 of the two matrices, evaluated. -/
theorem matricesInverse : Obligations.MatricesInverse := by
  refine ⟨?_, ?_, ?_⟩ <;> decide

theorem mixGridWith_imixM_mixM : mixGridWith imixM mixM = identityM := grid_ext fun i j => by
  obtain ⟨product, -, -⟩ := matricesInverse
  rw [cell_mixGridWith, ← wordByte_mixcol, product, identityM, cell_gridOf]

theorem mixGridWith_mixM_imixM : mixGridWith mixM imixM = identityM := grid_ext fun i j => by
  obtain ⟨-, product, -⟩ := matricesInverse
  rw [cell_mixGridWith, ← wordByte_mixcol, product, identityM, cell_gridOf]

/-! ## Each transform and its inverse -/

theorem isubGrid_subGrid (g : Grid) : isubGrid (subGrid g) = g := grid_ext fun row col => by
  rw [cell_isubGrid, cell_subGrid, isbox_sbox]

theorem subGrid_isubGrid (g : Grid) : subGrid (isubGrid g) = g := grid_ext fun row col => by
  rw [cell_subGrid, cell_isubGrid, sbox_isbox]

theorem ishrGrid_shrGrid (g : Grid) : ishrGrid (shrGrid g) = g := grid_ext fun row col => by
  rw [cell_ishrGrid, cell_shrGrid, sub_add_cancel]

theorem shrGrid_ishrGrid (g : Grid) : shrGrid (ishrGrid g) = g := grid_ext fun row col => by
  rw [cell_shrGrid, cell_ishrGrid, add_sub_cancel_right]

/-- Mix-Columns is undone because the product of the two matrices is the identity (R161, R162). -/
theorem imixGrid_mixGrid (g : Grid) : imixGrid (mixGrid g) = g := by
  rw [imixGrid, mixGrid, mixGridWith_mixGridWith, mixGridWith_imixM_mixM, mixGridWith_identityM]

theorem mixGrid_imixGrid (g : Grid) : mixGrid (imixGrid g) = g := by
  rw [imixGrid, mixGrid, mixGridWith_mixGridWith, mixGridWith_mixM_imixM, mixGridWith_identityM]

theorem arkGrid_arkGrid (k : Vector Word 4) (g : Grid) : arkGrid k (arkGrid k g) = g := grid_ext fun row col => by
  rw [cell_arkGrid, cell_arkGrid, BitVec.xor_assoc, BitVec.xor_self, BitVec.xor_zero]

/-- Settles O17, pair by pair. -/
theorem transformsInvert : Obligations.TransformsInvert := fun g =>
  ⟨isubGrid_subGrid g, subGrid_isubGrid g, ishrGrid_shrGrid g, shrGrid_ishrGrid g, imixGrid_mixGrid g,
    mixGrid_imixGrid g, fun k => arkGrid_arkGrid k g⟩

/-! ## The commutations -/

/-- Settles O18: the tables work on a Byte wherever it stands, and the shifts move Bytes whatever they are. -/
theorem substituteCommutesWithShift : Obligations.SubstituteCommutesWithShift := by
  refine fun g => ⟨grid_ext fun row col => ?_, grid_ext fun row col => ?_⟩
  · rw [cell_shrGrid, cell_subGrid, cell_subGrid, cell_shrGrid]
  · rw [cell_ishrGrid, cell_isubGrid, cell_isubGrid, cell_ishrGrid]

end Sys2Proof.Machine
end

section
/-! PROOFS. The micro-operations on the State matrix: when each gives a next state and which, and what each leaves
unchanged (rules R25, R52, R150 to R160). -/

namespace Sys2Proof.Machine

/-! ## The Bytes of the key schedule -/

/-- `RKB[4n + j]` is Byte `j` of `W[n]`, where that word holds a value (R25). -/
theorem readByte_rk (n : Nat) (j : Fin 4) (s : State) :
    readByte .rk (4 * n + j.val) s = (readW n s).map (wordByte · j) := by
  have hdiv : (4 * n + j.val) / 4 = n := by omega
  have hmod : (4 * n + j.val) % 4 = j.val := by omega
  rw [readByte, hdiv, hmod]
  cases readW n s with
  | none => rfl
  | some v => exact Vector.getElem?_eq_getElem j.isLt

/-! ## When each micro-operation gives a next state -/

/-- A State-to-State micro-operation where `S` holds a value (R150). -/
theorem transform_of_holds (f : Grid → Grid) {s : State} {g : Grid} (h : s.lane.grid = .holds g) :
    transform f s = .next (advance (writeGrid (f g) s)) := transform_next.2 ⟨g, h, rfl⟩

/-- When `LDST` gives a next state, and which (R151). -/
theorem execLdst_next {s t : State} :
    execLdst s = .next t ↔ ∃ b, s.lane.din = .holds b ∧ t = advance (writeGrid (gridOfBlock b) s) := by
  simp only [execLdst, withValue_next, Host.Outcome.next.injEq]
  exact exists_congr fun b => and_congr value?_eq_some eq_comm

/-- When `STST` gives a next state, and which (R152). -/
theorem execStst_next {s t : State} :
    execStst s = .next t ↔ ∃ g, s.lane.grid = .holds g ∧ t = advance (writeDout (blockOfGrid g) s) := by
  simp only [execStst, withValue_next, Host.Outcome.next.injEq]
  exact exists_congr fun g => and_congr value?_eq_some eq_comm

/-- Settles O19: `execLdst_next`, the grid being `gridOfBlock b`. -/
theorem ldstLoadsColumnMajor : Obligations.LdstLoadsColumnMajor :=
  ⟨rfl, fun _ b h => ⟨gridOfBlock b, cell_gridOfBlock b, execLdst_next.2 ⟨b, h, rfl⟩⟩⟩

/-- Byte `4*col + row` of an extracted grid is its entry `(row, col)` (R52, R152). -/
theorem blockByte_blockOfGrid_blockIndex (g : Grid) (row col : Fin 4) :
    blockByte (blockOfGrid g) (blockIndex row col) = cell g row col := by
  rw [blockByte_blockOfGrid, blockRow_blockIndex, blockCol_blockIndex]

/-- Settles O20: `execStst_next`, the block being `blockOfGrid g`. -/
theorem ststExtractsColumnMajor : Obligations.StstExtractsColumnMajor :=
  ⟨rfl, fun _ g h => ⟨blockOfGrid g, blockByte_blockOfGrid_blockIndex g, execStst_next.2 ⟨g, h, rfl⟩⟩,
    blockOfGrid_gridOfBlock⟩

/-- Settles O21: `SUB` and `ISUB` are `transform`s, by the maps of which `cell_subGrid` and `cell_isubGrid` speak. -/
theorem substituteSteps : Obligations.SubstituteSteps :=
  ⟨rfl, rfl, fun _ g h =>
    ⟨⟨subGrid g, cell_subGrid g, transform_of_holds subGrid h⟩,
      ⟨isubGrid g, cell_isubGrid g, transform_of_holds isubGrid h⟩⟩⟩

/-- Shift-Rows moves an entry toward lower column index by its row's number (R155). -/
theorem cell_shrGrid_sub (g : Grid) (row col : Fin 4) : cell (shrGrid g) row (col - row) = cell g row col := by
  rw [cell_shrGrid, sub_add_cancel]

/-- Inverse-Shift-Rows moves an entry toward higher column index by its row's number (R156). -/
theorem cell_ishrGrid_add (g : Grid) (row col : Fin 4) : cell (ishrGrid g) row (col + row) = cell g row col := by
  rw [cell_ishrGrid, add_sub_cancel_right]

/-- The column `(col - row) mod 4` is the difference of the two (R155). -/
theorem mk_mod_eq_sub (row col : Fin 4) : (⟨(col.val + 4 - row.val) % 4, by omega⟩ : Fin 4) = col - row := by
  ext
  simp only [Fin.val_sub]
  omega

/-- Settles O22: `SHR` and `ISHR` are `transform`s; the columns are sums and differences modulo 4. -/
theorem shiftRowsSteps : Obligations.ShiftRowsSteps := by
  refine ⟨rfl, rfl, fun s g h => ⟨⟨shrGrid g, fun row col => ?_, transform_of_holds shrGrid h⟩,
    ⟨ishrGrid g, cell_ishrGrid_add g, transform_of_holds ishrGrid h⟩⟩⟩
  rw [mk_mod_eq_sub, cell_shrGrid_sub]

/-- Settles O23: the rows of `mixM`, whose products with 0x01 are the Bytes themselves. -/
theorem mixColumnsStep : Obligations.MixColumnsStep := by
  refine ⟨rfl, fun s g h => ⟨mixGrid g, fun col => ?_, transform_of_holds mixGrid h⟩⟩
  simp only [mixGrid, cell_mixGridWith, mixEntry, wordByte_column]
  simp [mixM, cell]

/-- Settles O24: the rows of `imixM`. -/
theorem inverseMixColumnsStep : Obligations.InverseMixColumnsStep := by
  refine ⟨rfl, fun s g h => ⟨imixGrid g, fun col => ?_, transform_of_holds imixGrid h⟩⟩
  simp only [imixGrid, cell_mixGridWith, mixEntry, wordByte_column]
  exact ⟨rfl, rfl, rfl, rfl⟩

/-- Settles O25: the four words are the round key that `execArk_next` asks for, and `readByte_rk` gives their Bytes. -/
theorem arkAddsRoundKey : Obligations.ArkAddsRoundKey := by
  intro s r g k hr hg hk
  have hword (col : Fin 4) : readW (4 * r.toNat + col.val) s = some (k col) := by
    rw [readW, hk]
    rfl
  have hkey : readRoundKey r.toNat s = some (Vector.ofFn k) := readRoundKey_some.2 fun col => by simp [hword]
  refine ⟨rfl, arkGrid (Vector.ofFn k) g, fun row col => ⟨by simp, ?_⟩, execArk_next.2 ⟨hr, _, g, hkey, hg, rfl⟩⟩
  calc readByte .rk (16 * r.toNat + 4 * col.val + row.val) s
    _ = readByte .rk (4 * (4 * r.toNat + col.val) + row.val) s := by congr 1; omega
    _ = some (wordByte (k col) row) := by rw [readByte_rk, hword, Option.map_some]

/-! ## What each leaves unchanged -/

@[simp] theorem readByte_advance (sp : Space) (a : Nat) (s : State) :
    readByte sp a (advance s) = readByte sp a s := by
  cases sp <;> rfl

/-- No index space shows `S` (R50). -/
@[simp] theorem readByte_writeGrid (sp : Space) (a : Nat) (g : Grid) (s : State) :
    readByte sp a (writeGrid g s) = readByte sp a s := by
  cases sp <;> rfl

/-- `DOUT` is shown by its own index space alone (R27, R50). -/
theorem readByte_writeDout {sp : Space} (hsp : sp ≠ .dout) (a : Nat) (b : Block) (s : State) :
    readByte sp a (writeDout b s) = readByte sp a s := by
  cases sp with
  | dout => exact absurd rfl hsp
  | _ => rfl

/-- Each of the eight State operations, where it gives a next state, writes `S` and advances, and does nothing else
(R150). -/
theorem exec_stateTransform {i : Instr} {s t : State}
    (hi : i = .ldst ∨ i = .sub ∨ i = .isub ∨ i = .shr ∨ i = .ishr ∨ i = .mix ∨ i = .imix ∨ ∃ r, i = .ark r)
    (h : exec i s = .next t) : ∃ g, t = advance (writeGrid g s) := by
  have of_transform {f : Grid → Grid} (h : transform f s = .next t) : ∃ g, t = advance (writeGrid g s) := by
    obtain ⟨g, -, rfl⟩ := transform_next.1 h
    exact ⟨f g, rfl⟩
  obtain rfl | rfl | rfl | rfl | rfl | rfl | rfl | ⟨r, rfl⟩ := hi
  · obtain ⟨b, -, rfl⟩ := execLdst_next.1 h
    exact ⟨gridOfBlock b, rfl⟩
  · exact of_transform h
  · exact of_transform h
  · exact of_transform h
  · exact of_transform h
  · exact of_transform h
  · exact of_transform h
  · obtain ⟨-, k, g, -, -, rfl⟩ := execArk_next.1 h
    exact ⟨arkGrid k g, rfl⟩

/-- Settles O30: `exec_stateTransform`, and what `writeGrid` and `advance` leave alone. -/
theorem stateTransformFrame : Obligations.StateTransformFrame := by
  intro i s t hi h
  obtain ⟨g, rfl⟩ := exec_stateTransform hi h
  exact ⟨rfl, rfl, rfl, rfl, rfl, rfl, rfl, rfl, rfl, rfl, rfl, fun sp a => by simp⟩

/-- Settles O31: `execStst_next`, and what `writeDout` and `advance` leave alone. -/
theorem ststFrame : Obligations.StstFrame := by
  intro s t h
  obtain ⟨g, -, rfl⟩ := execStst_next.1 h
  exact ⟨rfl, rfl, rfl, rfl, rfl, rfl, rfl, rfl, rfl, rfl, rfl,
    fun sp a hsp => by
    rw [readByte_advance, readByte_writeDout hsp]⟩

end Sys2Proof.Machine
end

section
/-! PROOFS. The key schedule: its function units Byte by Byte, the word each `KXW i` computes and what it leaves
unchanged, and the expansion as a recurrence that runs both ways (rules R181 to R186). -/

namespace Sys2Proof.Machine

/-! ## The function units -/

/-- Rotation moves each Byte one place toward the first, cyclically (R181). -/
theorem wordByte_rotword (v : Word) (j : Fin 4) : wordByte (rotword v) j = wordByte v (j + 1) :=
  match j with
  | 0 => rfl
  | 1 => rfl
  | 2 => rfl
  | 3 => rfl

theorem wordByte_subword (v : Word) (j : Fin 4) : wordByte (subword v) j = sbox (wordByte v j) := wordByte_wordOf _ _

/-- The table works on a Byte wherever it stands in the word (R182). -/
theorem subword_rotword (v : Word) : subword (rotword v) = rotword (subword v) := word_ext fun j => by
  rw [wordByte_subword, wordByte_rotword, wordByte_rotword, wordByte_subword]

/-- A Byte of `subword (rotword v)`, the word into whose first Byte `g` puts the round constant (R183). -/
theorem wordByte_subword_rotword (v : Word) (j : Fin 4) :
    wordByte (subword (rotword v)) j = sbox (wordByte v (j + 1)) := by
  rw [wordByte_subword, wordByte_rotword]

/-- `g` Byte by Byte (R183). -/
theorem wordByte_gWord (v : Word) (n : Byte) :
    wordByte (gWord v n) 0 = sbox (wordByte v 1) ^^^ rcon n ∧ wordByte (gWord v n) 1 = sbox (wordByte v 2) ∧
      wordByte (gWord v n) 2 = sbox (wordByte v 3) ∧ wordByte (gWord v n) 3 = sbox (wordByte v 0) :=
  have hbyte := wordByte_subword_rotword v
  ⟨congrArg (· ^^^ rcon n) (hbyte 0), hbyte 1, hbyte 2, hbyte 3⟩

/-- Settles O27: `wordByte_rotword` at the four Bytes, then the lemmas on `subword` and `g`. -/
theorem keyScheduleUnits : Obligations.KeyScheduleUnits :=
  ⟨fun v => ⟨wordByte_rotword v 0, wordByte_rotword v 1, wordByte_rotword v 2, wordByte_rotword v 3⟩,
    wordByte_subword, subword_rotword, wordByte_gWord⟩

/-! ## The words a micro-operation computes -/

/-- Byte `j` of key word `i` is key Byte `4i + j` (R54). -/
theorem wordByte_keyWord (b : Block) (i j : Fin 4) : wordByte (keyWord b i.val) j = blockByte b (blockIndex j i) := by
  have hlt : 4 * i.val + j.val < 16 := by omega
  simp [keyWord, blockByte, blockIndex, List.getD, hlt]

theorem kxwTemp_of_mod_ne_zero {i : Nat} (h : i % 4 ≠ 0) (prev : Word) : kxwTemp i prev = prev := if_neg h

theorem kxwTemp_of_mod_eq_zero {i : Nat} (h : i % 4 = 0) (prev : Word) :
    kxwTemp i prev = gWord prev (BitVec.ofNat 8 (i / 4)) := if_pos h

/-- The first four words are copied from the key in DIN (R184). -/
theorem kxwWord_of_lt {i : Nat} {s : State} {b : Block} (hi : i < 4) (hd : s.lane.din = .holds b) :
    kxwWord i s = some (keyWord b i) := by
  rw [kxwWord, Config.keyStride, if_pos hi, hd, value?_holds, Option.map_some]

/-- From the fifth word on, the recurrence over two words that hold values (R184). -/
theorem kxwWord_of_ge {i : Nat} {s : State} {prev back : Word} (hi : 4 ≤ i)
    (hprev : s.w[i - 1]? = some (.holds prev)) (hback : s.w[i - 4]? = some (.holds back)) :
    kxwWord i s = some (xorWord back (kxwTemp i prev)) := by
  rw [kxwWord, Config.keyStride, if_neg (Nat.not_lt_of_le hi), readW, readW, hprev, hback]
  rfl

/-- Settles O26: `execKxw_next` with the word of `kxwWord_of_lt` or `kxwWord_of_ge`. -/
theorem kxwComputesWord : Obligations.KxwComputesWord := by
  refine ⟨fun _ _ => rfl, fun s i b hi hd => ⟨keyWord b i.toNat, fun j => ?_, ?_⟩,
    fun s i prev back low high hprev hback =>
      ⟨xorWord back (kxwTemp i.toNat prev), fun hmod j => ?_, fun hmod => ?_, ?_⟩⟩
  · rw [wordByte_keyWord b ⟨i.toNat, hi⟩ j]
    exact Vector.getElem?_eq_getElem (by omega)
  · exact execKxw_next.2 ⟨by omega, _, kxwWord_of_lt hi hd, rfl⟩
  · rw [wordByte_xorWord, kxwTemp_of_mod_ne_zero hmod]
  · obtain ⟨h0, h1, h2, h3⟩ := wordByte_gWord prev (BitVec.ofNat 8 (i.toNat / 4))
    simp only [wordByte_xorWord, kxwTemp_of_mod_eq_zero hmod, h0, h1, h2, h3, and_self]
  · exact execKxw_next.2 ⟨by omega, _, kxwWord_of_ge low hprev hback, rfl⟩

/-! ## What a micro-operation leaves unchanged -/

/-- `W[n]` is shown by `RKB[4n .. 4n+3]` alone (R25, R50). -/
theorem readByte_writeW {sp : Space} {a n : Nat} (h : sp = .rk → a < 4 * n ∨ 4 * n + 3 < a) (v : Word) (s : State) :
    readByte sp a (writeW n v s) = readByte sp a s := by
  cases sp with
  | rk =>
    have hword : ¬(a / 4 = n ∧ n < 44) := by have := h rfl; omega
    rw [readByte, readByte, readW_writeW, if_neg hword]
  | _ => rfl

/-- Settles O32: `execKxw_next`, and what `writeW` and `advance` leave alone. -/
theorem kxwFrame : Obligations.KxwFrame := by
  intro i s t h
  obtain ⟨-, v, -, rfl⟩ := execKxw_next.1 h
  refine ⟨fun n hn => ?_, rfl, rfl, rfl, rfl, rfl, fun sp a ha => ?_⟩
  · exact Vector.getElem_setIfInBounds_ne n.isLt hn.symm
  · rw [readByte_advance, readByte_writeW ha]

/-! ## The expansion -/

/-- Adding a word twice leaves the other (R9). -/
theorem xorWord_xorWord_cancel (u v : Word) : xorWord (xorWord u v) v = u := word_ext fun j => by
  rw [wordByte_xorWord, wordByte_xorWord, BitVec.xor_assoc, BitVec.xor_self, BitVec.xor_zero]

/-- The expansion starts with the key (R185). -/
theorem expand_getElem_of_lt (key : Block) {n : Nat} (hn : n < 4) : (expand key)[n] = keyWord key n := by
  rw [expand_getElem key (by omega), nextWord, Config.keyStride, if_pos hn]

/-- The recurrence of the expansion (R185). -/
theorem expand_getElem_of_ge (key : Block) {n : Nat} (hn : n < 44) (h4 : 4 ≤ n) :
    (expand key)[n] = xorWord (expand key)[n - 4] (kxwTemp n (expand key)[n - 1]) := by
  have hword {m : Nat} (hm : m < 44) : (expand key).toList.getD m (Vector.replicate 4 0) = (expand key)[m] := by
    simp [List.getD, hm]
  rw [expand_getElem key hn, nextWord, Config.keyStride, if_neg (Nat.not_lt_of_le h4), hword (by omega),
    hword (by omega)]

/-- The key is the first four words of its expansion, so the expansion determines it (R186). -/
theorem expand_injective : Function.Injective expand := by
  intro k1 k2 h
  have hword (i : Fin 4) : keyWord k1 i.val = keyWord k2 i.val := by
    rw [← expand_getElem_of_lt k1 i.isLt, ← expand_getElem_of_lt k2 i.isLt, h]
  refine block_ext fun n => ?_
  rw [← blockIndex_row_col n, ← wordByte_keyWord, ← wordByte_keyWord, hword]

/-- Settles O48: backwards, the recurrence is the forward one with `temp` added on either side. -/
theorem expansionRecurrence : Obligations.ExpansionRecurrence := by
  refine ⟨fun key n hn => expand_getElem_of_lt key hn, fun key n hn h4 => ?_, fun _ _ h => expand_injective h⟩
  have hforward := expand_getElem_of_ge key hn h4
  exact ⟨hforward, by rw [hforward, xorWord_xorWord_cancel]⟩

end Sys2Proof.Machine
end

section
/-! PROOFS. The two round sequences as functions undo each other under every schedule (rules R206, R207, R210). -/

namespace Sys2Proof.Machine

/-! ## Each round undone, seen through the shift and the substitution -/

/-- Adding a round key twice leaves the State (R161). -/
theorem addKey_addKey (ks : KeyWords) (r : Nat) (g : Grid) : addKey ks r (addKey ks r g) = g := arkGrid_arkGrid _ _

/-- A main round of `DEC` undoes a main round of `ENC`, `SUB; SHR` standing before it and being left after it (R210). -/
theorem decRoundGrid_encRoundGrid (ks : KeyWords) (g : Grid) (r : Nat) :
    decRoundGrid ks (shrGrid (subGrid (encRoundGrid ks g r))) r = shrGrid (subGrid g) := by
  rw [decRoundGrid, ishrGrid_shrGrid, isubGrid_subGrid, encRoundGrid, addKey_addKey, imixGrid_mixGrid]

/-- A main round of `ENC` undoes a main round of `DEC`, `ISHR; ISUB` standing before it and being left after it
(R210). -/
theorem encRoundGrid_decRoundGrid (ks : KeyWords) (g : Grid) (r : Nat) :
    encRoundGrid ks (isubGrid (ishrGrid (decRoundGrid ks g r))) r = isubGrid (ishrGrid g) := by
  rw [encRoundGrid, subGrid_isubGrid, shrGrid_ishrGrid, decRoundGrid, mixGrid_imixGrid, addKey_addKey]

/-- Where `undo` takes back one round `next`, both seen through `view`, the rounds in reverse take back all of them. -/
theorem foldl_reverse_foldl {undo next : Grid → Nat → Grid} {view : Grid → Grid}
    (hround : ∀ g r, undo (view (next g r)) r = view g) (rs : List Nat) (g : Grid) :
    rs.reverse.foldl undo (view (rs.foldl next g)) = view g := by
  induction rs generalizing g with
  | nil => rfl
  | cons r rs ih =>
    rw [List.reverse_cons, List.foldl_append, List.foldl_cons (l := rs), ih, List.foldl_cons, List.foldl_nil, hround]

/-- The nine main rounds of `DEC` undo those of `ENC` (R210). -/
theorem decRounds_encRounds (ks : KeyWords) (g : Grid) :
    [9, 8, 7, 6, 5, 4, 3, 2, 1].foldl (decRoundGrid ks)
        (shrGrid (subGrid ([1, 2, 3, 4, 5, 6, 7, 8, 9].foldl (encRoundGrid ks) g))) = shrGrid (subGrid g) :=
  foldl_reverse_foldl (view := fun g => shrGrid (subGrid g)) (decRoundGrid_encRoundGrid ks)
    [1, 2, 3, 4, 5, 6, 7, 8, 9] g

/-- The nine main rounds of `ENC` undo those of `DEC` (R210). -/
theorem encRounds_decRounds (ks : KeyWords) (g : Grid) :
    [1, 2, 3, 4, 5, 6, 7, 8, 9].foldl (encRoundGrid ks)
        (isubGrid (ishrGrid ([9, 8, 7, 6, 5, 4, 3, 2, 1].foldl (decRoundGrid ks) g))) = isubGrid (ishrGrid g) :=
  foldl_reverse_foldl (view := fun g => isubGrid (ishrGrid g)) (encRoundGrid_decRoundGrid ks)
    [9, 8, 7, 6, 5, 4, 3, 2, 1] g

theorem invCipher_cipher (ks : KeyWords) (b : Block) : invCipher ks (cipher ks b) = b := by
  rw [invCipher, cipher, gridOfBlock_blockOfGrid, addKey_addKey, decRounds_encRounds, ishrGrid_shrGrid,
    isubGrid_subGrid, addKey_addKey, blockOfGrid_gridOfBlock]

theorem cipher_invCipher (ks : KeyWords) (b : Block) : cipher ks (invCipher ks b) = b := by
  rw [cipher, invCipher, gridOfBlock_blockOfGrid, addKey_addKey, encRounds_decRounds, subGrid_isubGrid,
    shrGrid_ishrGrid, addKey_addKey, blockOfGrid_gridOfBlock]

/-- Settles O46: the outer operations cancel in pairs, and the nine main rounds undo each other. -/
theorem cipherRoundTrip : Obligations.CipherRoundTrip := fun ks b => ⟨invCipher_cipher ks b, cipher_invCipher ks b⟩

end Sys2Proof.Machine
end

section
/-! PROOFS. The host commands at their acceptance: what each does when it is held, answered or started, what it leaves
unchanged, and the step of the idle lane that accepts it (rules R201, R206 to R208, R241 to R246, R274, R275). -/

namespace Sys2Proof.Machine

/-! ## What a command does -/

/-- What a host command can do: be held, be answered with an error, or start its run, KEYEXP clearing KEY_VALID (R201,
R246). -/
inductive AcceptanceEffect (i : Instr) (s : State) : State → Prop where
  | held (hc : canAccept (encode i) s = false) : AcceptanceEffect i s s
  | answered (hc : canAccept (encode i) s = true) (e : Status) : AcceptanceEffect i s (raise e s)
  | started (hc : canAccept (encode i) s = true) (entry : BitVec 7) (b : Block) :
      AcceptanceEffect i s (start entry b (setKeyValid (if encode i = 0x01 then false else s.keyValid) s))

/-- A block command keeps KEY_VALID when it starts (R206, R207). -/
theorem AcceptanceEffect.of_blockCommand {i : Instr} {entry : BitVec 7} {data : List Byte} {s t : State}
    (hi : encode i ≠ 0x01) (h : blockCommand (encode i) entry data s = .next t) : AcceptanceEffect i s t := by
  obtain ⟨hc, hs⟩ | ⟨hc, -, hs⟩ | ⟨hc, -, -, hs⟩ | ⟨b, hc, -, -, hs⟩ := blockCommand_cases (encode i) entry data s <;>
    cases hs.symm.trans h
  · exact .held hc
  · exact .answered hc _
  · exact .answered hc _
  · have := started hc entry b
    rwa [if_neg hi] at this

/-- Every host command has one of the three effects (R201). -/
theorem acceptanceEffect_of_exec {i : Instr} {s t : State} (hf : i.format = .H) (h : exec i s = .next t) :
    AcceptanceEffect i s t := by
  cases i with
  | enc _ => exact .of_blockCommand (show (0x02 : Byte) ≠ 0x01 by decide) h
  | dec _ => exact .of_blockCommand (show (0x03 : Byte) ≠ 0x01 by decide) h
  | keyexp data =>
    have haccept : canAccept (encode (.keyexp data)) s = allIdle s := rfl
    obtain ⟨hc, hs⟩ | ⟨hc, -, hs⟩ | ⟨b, hc, -, hs⟩ := execKeyexp_cases data s <;> cases hs.symm.trans h
    · exact .held (haccept.trans hc)
    · exact .answered (haccept.trans hc) _
    · exact .started (haccept.trans hc) _ b
  | _ => cases hf

/-! ## What it leaves unchanged -/

/-- No index space shows a response (R31, R50). -/
@[simp] theorem readByte_respond (sp : Space) (a : Nat) (st : Status) (out : List Byte) (s : State) :
    readByte sp a (respond st out s) = readByte sp a s := by
  cases sp <;> rfl

/-- No index space shows KEY_VALID (R26, R50). -/
@[simp] theorem readByte_setKeyValid (sp : Space) (a : Nat) (v : Bool) (s : State) :
    readByte sp a (setKeyValid v s) = readByte sp a s := by
  cases sp <;> rfl

/-- The start of a run changes the Bytes of DIN alone (R201, R50). -/
theorem readByte_start {sp : Space} (hsp : sp ≠ .din) (a : Nat) (entry : BitVec 7) (b : Block) (s : State) :
    readByte sp a (start entry b s) = readByte sp a s := by
  cases sp with
  | din => exact absurd rfl hsp
  | _ => rfl

/-- Settles O33: `AcceptanceEffect`, and what `raise`, `start` and `setKeyValid` leave alone. -/
theorem hostCommandFrame : Obligations.HostCommandFrame := by
  intro i s t hf h
  cases acceptanceEffect_of_exec hf h with
  | held hc =>
    exact ⟨rfl, rfl, rfl, rfl, rfl, rfl, rfl, fun _ _ _ => rfl, fun _ => rfl, .inr ⟨[], by simp, by simp⟩⟩
  | answered hc e =>
    refine ⟨rfl, rfl, rfl, rfl, rfl, rfl, rfl, fun sp a _ => by simp, fun h => ?_,
      .inr ⟨[⟨e, []⟩], le_rfl, rfl⟩⟩
    simp [hc] at h
  | started hc entry b =>
    refine ⟨rfl, rfl, rfl, rfl, rfl, rfl, rfl, fun sp a hsp => ?_, fun h => ?_, .inl ⟨hc, rfl, rfl, ?_⟩⟩
    · rw [readByte_start hsp, readByte_setKeyValid]
    · simp [hc] at h
    · cases i with
      | keyexp _ => rfl
      | enc _ => rfl
      | dec _ => rfl
      | _ => cases hf

/-! ## When it starts and when it is answered -/

/-- KEYEXP of 16 Bytes starts while every lane is idle (R201, R208). -/
theorem execKeyexp_starts {s : State} (h : allIdle s = true) (b : Block) :
    execKeyexp b.toList s = .next (start keyexpEntry b (setKeyValid false s)) := by
  simp [execKeyexp, h]

/-- A block command of 16 Bytes starts where it is accepted under a valid schedule (R201, R206, R207). -/
theorem blockCommand_starts {cmd : Byte} {s : State} (hc : canAccept cmd s = true) (hk : s.keyValid = true)
    (entry : BitVec 7) (b : Block) : blockCommand cmd entry b.toList s = .next (start entry b s) := by
  simp [blockCommand, hc, hk]

/-- A block command of 16 Bytes is answered with ERR_NOSCHED where there is no schedule (R243). -/
theorem blockCommand_noSchedule {cmd : Byte} {s : State} (hc : canAccept cmd s = true) (hk : s.keyValid = false)
    (entry : BitVec 7) (b : Block) : blockCommand cmd entry b.toList s = .next (raise .errNoSched s) := by
  simp [blockCommand, hc, hk]

/-- A block command of any other length is answered with ERR_BLKLEN (R242, R245). -/
theorem blockCommand_wrongLength {cmd : Byte} {data : List Byte} {s : State} (hc : canAccept cmd s = true)
    (hl : data.length ≠ 16) (entry : BitVec 7) : blockCommand cmd entry data s = .next (raise .errBlkLen s) := by
  simp [blockCommand, hc, blockOfBytes?_none.2 hl]

/-- KEYEXP of any other length is answered with ERR_KEYLEN (R241). -/
theorem execKeyexp_wrongLength {data : List Byte} {s : State} (hc : allIdle s = true) (hl : data.length ≠ 16) :
    execKeyexp data s = .next (raise .errKeyLen s) := by
  simp [execKeyexp, hc, blockOfBytes?_none.2 hl]

/-- Settles O35: the three commands' starts, with their entry points. -/
theorem hostCommandsStart : Obligations.HostCommandsStart := fun _ b =>
  ⟨fun hi => execKeyexp_starts hi b, fun ho hk => blockCommand_starts (cmd := 0x02) ho hk encEntry b,
    fun ho hk => blockCommand_starts (cmd := 0x03) ho hk decEntry b⟩

/-! ## The step of the lane that accepts -/

/-- A lane that may accept a request is idle (R274). -/
theorem idle_of_canAccept {cmd : Byte} {s : State} (h : canAccept cmd s = true) : s.lane.busy = false := by
  unfold canAccept at h
  split at h
  · simpa using List.all_eq_true.1 h _ (lane_mem_lanes s)
  · simp only [laneOpen, Bool.and_eq_true] at h
    simpa using h.1

/-- An accepted command leaves the port and is executed (R201). -/
theorem laneStep_accepts {s : State} {req : Request} {more : List Request} {i : Instr}
    (hp : s.lane.port = req :: more) (hc : canAccept req.cmd s = true) (hd : decodeH req.cmd req.data = .ok i) :
    laneStep s = exec i (takeRequest s) := by
  simp [laneStep, idle_of_canAccept hc, hostStep, hp, hc, hd]

/-- An accepted reserved byte leaves the port and is answered with ERR_CMD (R89, R244). -/
theorem laneStep_reserved {s : State} {req : Request} {more : List Request} {e : Reject}
    (hp : s.lane.port = req :: more) (hc : canAccept req.cmd s = true) (hd : decodeH req.cmd req.data = .error e) :
    laneStep s = .next (raise .errCmd (takeRequest s)) := by
  simp [laneStep, idle_of_canAccept hc, hostStep, hp, hc, hd]

end Sys2Proof.Machine
end

section
/-! PROOFS. The sequencer: the micro-program is its generator's, each micro-step runs the operation at `upc`, and it
advances or completes (rules R201 to R205, R211, R213). -/

namespace Sys2Proof.Machine

/-! ## The micro-program -/

/-- The operations of the micro-program in order, as the generator gives them (R202). -/
def microProgram : List Instr := encProgram ++ decProgram ++ keyexpProgram

/-- Settles O7: both sides are 128 constant words. -/
theorem microProgramIsGenerated : Obligations.MicroProgramIsGenerated := by
  refine ⟨?_, rfl, rfl, rfl, rfl⟩
  rw [urom, List.map_append, List.map_append]
  rfl

/-- The generator gives encodings the engine has (R86, R87, R202). -/
theorem microProgram_wellFormed : ∀ i ∈ microProgram, i.format = .U ∧ i.wellFormed = true :=
  have hall : microProgram.all (fun i => decide (i.format = .U ∧ i.wellFormed = true)) = true := rfl
  fun i hi => of_decide_eq_true (List.all_eq_true.1 hall i hi)

/-- The word at entry `n` decodes to the generator's operation `n` (R202, R204). -/
theorem decodeU_fetch {n : Nat} {i : Instr} (h : microProgram[n]? = some i) :
    decodeU (fetch (BitVec.ofNat 7 n)) = .ok i := by
  obtain ⟨hurom, -⟩ := microProgramIsGenerated
  have hn : n < 128 := (List.getElem?_eq_some_iff.1 h).1
  have hword : fetch (BitVec.ofNat 7 n) = encode i := by
    have : urom[n]? = some (encode i) := by rw [hurom, List.getElem?_map]; exact congrArg _ h
    simp [fetch, List.getD, Nat.mod_eq_of_lt hn, this]
  obtain ⟨hf, hwf⟩ := microProgram_wellFormed i (List.mem_of_getElem? h)
  exact decodeU_ok_iff.2 ⟨hf, hwf, hword.symm⟩

/-! ## The micro-step -/

/-- A busy lane executes the operation the word at `upc` decodes to, and completes where it ends the run (R204, R205). -/
theorem laneStep_decoded {s : State} {i : Instr} (hb : s.lane.busy = true) (hd : decodeU (fetch s.lane.upc) = .ok i) :
    laneStep s = microExec i s := by
  rw [laneStep, if_pos hb, microStep, hd]

/-- Settles O40: the lemmas on `focus`, and `laneStep_decoded` and `laneStep_accepts`. -/
theorem stepRunsDecodedInstruction : Obligations.StepRunsDecodedInstruction := by
  refine ⟨fun s k rest h => step_turn h, fun s k l h => ?_, fun s k h => ?_, fun s h => ⟨?_, rfl⟩,
    fun s i hb hd => ?_, fun s req more i _ hp hc hd => ?_⟩
  · exact ⟨focus_lane h, focus_laneNo (List.getElem?_eq_some_iff.1 h).1, focus_lanes k s, focus_w k s,
      focus_keyValid k s, focus_schedule k s⟩
  · rw [focus, List.drop_eq_nil_of_le (List.getElem?_eq_none_iff.1 h)]
  · rw [step, engineStep, h]
  · cases hx : exec i s <;> simp [laneStep_decoded hb hd, microExec, hx]
  · rw [laneStep_accepts hp hc hd, takeRequest, hp, List.tail_cons]

/-- STST stands at the last entry of each block sequence (R203). -/
theorem fetch_stst {upc : BitVec 7} (h : upc = 41 ∨ upc = 83) : decodeU (fetch upc) = .ok .stst := by
  rcases h with rfl | rfl
  · exact decodeU_fetch (n := 41) rfl
  · exact decodeU_fetch (n := 83) rfl

/-- STST extracts the State that the lane holds, responds with it, and leaves its pattern (R152, R205, R23). -/
theorem microStep_stst {s t : State} (hd : decodeU (fetch s.lane.upc) = .ok .stst) (h : microStep s = .next t) :
    ∃ g, s.lane.grid = .holds g ∧
      t = respond .ok (blockOfGrid g).toList (goIdle (advance (writeDout (blockOfGrid g) s))) := by
  obtain ⟨i, u, hi, hu, ht⟩ := microStep_next.1 h
  obtain rfl : .stst = i := Except.ok.inj (hd.symm.trans hi)
  obtain ⟨g, hg, rfl⟩ := execStst_next.1 hu
  exact ⟨g, hg, (Host.Outcome.next.inj ht).symm⟩

/-- Settles O41: `microStep_stst` at 41 and 83, and elsewhere the effects of `microStep_effect`. -/
theorem microStepAdvancesOrCompletes : Obligations.MicroStepAdvancesOrCompletes := by
  intro s t hb h
  rw [laneStep, if_pos hb] at h
  split_ifs with hblock hlast
  · obtain ⟨g, hg, rfl⟩ := microStep_stst (fetch_stst hblock) h
    exact ⟨rfl, rfl, rfl, g, hg, by simp [Content.discard, hg], rfl, rfl⟩
  · have h127 : s.lane.upc.toNat = 127 := by rw [hlast]; rfl
    cases microStep_effect h with
    | stateWritten g hu => omega
    | blockEnded b hu => exact absurd hu hblock
    | wordWritten n v hn hu => omega
    | scheduleEnded v => exact ⟨rfl, rfl, rfl, rfl, rfl⟩
  · cases microStep_effect h with
    | stateWritten g => exact ⟨hb, rfl, rfl, rfl⟩
    | blockEnded b hu => exact absurd hu hblock
    | wordWritten n v => exact ⟨hb, rfl, rfl, rfl⟩
    | scheduleEnded v hu => exact absurd (BitVec.eq_of_toNat_eq hu) hlast

end Sys2Proof.Machine
end

section
/-! PROOFS. Whole runs: a lane that is given its turns goes through the micro-program of its command to the result of the
whole-transaction functions (rules R204 to R208, R212, R213). -/

namespace Sys2Proof.Machine

/-! ## The moving lane given its turns -/

/-- Given its next `n` turns the moving lane takes the engine from `s` to `t`, whatever the schedule names after them
(R211). -/
structure RunsTo (n : Nat) (s t : State) : Prop where
  laneNo : t.laneNo = s.laneNo
  reaches : ∀ rest, run n { s with schedule := List.replicate n (.turn s.laneNo) ++ rest } =
    .next { t with schedule := rest }

/-- The run that a schedule beginning with those turns gives. -/
theorem RunsTo.run_eq {n : Nat} {s t : State} {rest : List Event} (h : RunsTo n s t)
    (hs : s.schedule = List.replicate n (.turn s.laneNo) ++ rest) : run n s = .next { t with schedule := rest } := by
  have := h.reaches rest
  rwa [← hs] at this

/-- One turn is one step of the lane. -/
theorem RunsTo.of_laneStep {s t : State} (hn : t.laneNo = s.laneNo)
    (h : ∀ rest, laneStep { s with schedule := rest } = .next { t with schedule := rest }) : RunsTo 1 s t := by
  refine ⟨hn, fun rest => run_succ_next.2 ⟨_, ?_, rfl⟩⟩
  rw [step_turn (rest := rest) rfl]
  exact (congrArg laneStep (focus_self { s with schedule := rest })).trans (h rest)

/-- A run of `m + n` steps is a run of `m` and then one of `n`. -/
theorem run_add {m n : Nat} {s u : State} (h : run m s = .next u) : run (m + n) s = run n u := by
  induction m generalizing s with
  | zero =>
    cases h
    rw [Nat.zero_add]
  | succ m ih =>
    obtain ⟨v, hv, hu⟩ := run_succ_next.1 h
    rw [Nat.succ_add, run, hv]
    exact ih hu

theorem RunsTo.trans {m n : Nat} {s u t : State} (hu : RunsTo m s u) (ht : RunsTo n u t) : RunsTo (m + n) s t := by
  refine ⟨ht.laneNo.trans hu.laneNo, fun rest => ?_⟩
  rw [List.replicate_add, List.append_assoc, run_add (hu.reaches _), ← hu.laneNo]
  exact ht.reaches rest

theorem RunsTo.refl (s : State) : RunsTo 0 s s := ⟨rfl, fun _ => rfl⟩

/-! ## Micro-steps by their number in the micro-program -/

/-- The micro-step of a busy lane at entry `n` executes operation `n` and completes where it ends the run (R204). -/
theorem laneStep_at {s u : State} {n : Nat} {i : Instr} (hb : s.lane.busy = true) (hu : s.lane.upc = BitVec.ofNat 7 n)
    (hi : microProgram[n]? = some i) (hx : exec i s = .next u) : laneStep s = complete (ending i) u := by
  rw [laneStep_decoded hb (hu ▸ decodeU_fetch hi), microExec, hx]

/-! ## The State operations of a block sequence -/

/-- What an operation between LDST and STST makes of the State under a schedule; `none` for any other (R150). -/
def gridStep? (ks : KeyWords) (g : Grid) : Instr → Option Grid
  | .sub => some (subGrid g)
  | .shr => some (shrGrid g)
  | .mix => some (mixGrid g)
  | .isub => some (isubGrid g)
  | .ishr => some (ishrGrid g)
  | .imix => some (imixGrid g)
  | .ark r => if r.toNat ≤ 10 then some (addKey ks r.toNat g) else none
  | .keyexp _ => none
  | .enc _ => none
  | .dec _ => none
  | .ldst => none
  | .stst => none
  | .kxw _ => none

/-- `W` holds the schedule `ks` (R24). -/
def Holds (w : Vector (Content Word) 44) (ks : KeyWords) : Prop := ∀ n : Fin 44, w[n] = .holds ks[n]

/-- Round key `r` is read as `roundKey` gives it, where `W` holds the schedule (R25). -/
theorem readRoundKey_of_holds {s : State} {ks : KeyWords} (hw : Holds s.w ks) {r : Nat} (hr : r ≤ 10) :
    readRoundKey r s = some (roundKey ks r) := by
  refine readRoundKey_some.2 fun c => ?_
  have hlt : 4 * r + c.val < 44 := by omega
  have hword : s.w[4 * r + c.val] = .holds ks[4 * r + c.val] := hw ⟨4 * r + c.val, hlt⟩
  simp [readW_lt hlt, hword, roundKey, List.getD, hlt]

/-- A State operation is executed as `gridStep?` says, and ends no run (R150, R205). -/
theorem exec_of_gridStep? {s : State} {ks : KeyWords} {i : Instr} {g g' : Grid} (hw : Holds s.w ks)
    (hg : s.lane.grid = .holds g) (h : gridStep? ks g i = some g') :
    exec i s = .next (advance (writeGrid g' s)) ∧ ending i = .none := by
  have of_transform {f : Grid → Grid} (h : some (f g) = some g') :
      transform f s = .next (advance (writeGrid g' s)) := by
    cases h
    exact transform_of_holds f hg
  cases i with
  | sub => exact ⟨of_transform h, rfl⟩
  | shr => exact ⟨of_transform h, rfl⟩
  | mix => exact ⟨of_transform h, rfl⟩
  | isub => exact ⟨of_transform h, rfl⟩
  | ishr => exact ⟨of_transform h, rfl⟩
  | imix => exact ⟨of_transform h, rfl⟩
  | ark r =>
    obtain ⟨hr, h⟩ := Option.ite_none_right_eq_some.1 h
    cases h
    exact ⟨execArk_next.2 ⟨hr, _, g, readRoundKey_of_holds hw hr, hg, rfl⟩, rfl⟩
  | _ => cases h

/-- The moving lane in a run, at entry `n`, its State holding `g`. -/
def atEntry (n : Nat) (g : Grid) (s : State) : State :=
  { s with lane := { s.lane with grid := .holds g, upc := BitVec.ofNat 7 n } }

/-- Writing the State and advancing is going to the next entry (R29, R150). -/
theorem advance_writeGrid {s : State} {n : Nat} (hu : s.lane.upc = BitVec.ofNat 7 n) (g : Grid) :
    advance (writeGrid g s) = atEntry (n + 1) g s := by
  simp [advance, writeGrid, atEntry, hu, BitVec.ofNat_add]

/-- The State operations that stand at an entry take the State through `gridStep?`, one after the other, and nothing
else changes but `upc` (R150, R204). -/
theorem runsTo_gridSteps {s : State} {ks : KeyWords} {is : List Instr} {n : Nat} {g g' : Grid}
    (hb : s.lane.busy = true) (hw : Holds s.w ks) (hp : is <+: microProgram.drop n)
    (hg : is.foldlM (gridStep? ks) g = some g') :
    RunsTo is.length (atEntry n g s) (atEntry (n + is.length) g' s) := by
  induction is generalizing n g with
  | nil =>
    cases hg
    exact .refl _
  | cons i is ih =>
    obtain ⟨tail, htail⟩ := hp
    have hi : microProgram[n]? = some i := by
      rw [← Nat.add_zero n, ← List.getElem?_drop, ← htail]
      rfl
    have hnext : is <+: microProgram.drop (n + 1) := ⟨tail, by rw [← List.drop_drop, ← htail]; rfl⟩
    obtain ⟨g₁, h₁, hg⟩ := Option.bind_eq_some_iff.1 ((List.foldlM_cons ..).symm.trans hg)
    have first : RunsTo 1 (atEntry n g s) (atEntry (n + 1) g₁ s) := by
      refine .of_laneStep rfl fun rest => ?_
      obtain ⟨hx, hend⟩ := exec_of_gridStep? (s := { atEntry n g s with schedule := rest }) hw rfl h₁
      rw [laneStep_at (s := { atEntry n g s with schedule := rest }) hb rfl hi hx, hend, advance_writeGrid (n := n) rfl]
      rfl
    have := first.trans (ih hnext hg)
    rwa [Nat.add_comm 1, Nat.add_assoc n, Nat.add_comm 1] at this

/-! ## Block transforms -/

/-- The engine after a block transform of the moving lane: DIN, DOUT and S as `finishBlock` has them, the lane idle, the
request taken and the response given (R205, R212). -/
def afterBlock (b out : Block) (s : State) : State :=
  respond .ok out.toList (goIdle (finishBlock b out (takeRequest s)))

/-- A lane at the LDST of a block sequence runs it through to its STST and the end (R204 to R207). -/
theorem runsTo_blockSequence {s : State} {ks : KeyWords} {is : List Instr} {n : Nat} {b : Block} {g : Grid}
    (hw : Holds s.w ks) (hp : Instr.ldst :: (is ++ [Instr.stst]) <+: microProgram.drop n)
    (hg : is.foldlM (gridStep? ks) (gridOfBlock b) = some g) :
    RunsTo (1 + is.length + 1) (start (BitVec.ofNat 7 n) b s)
      (respond .ok (blockOfGrid g).toList (goIdle (finishBlock b (blockOfGrid g) s))) := by
  obtain ⟨tail, htail⟩ := hp
  have hentry (k : Nat) : microProgram[n + k]? = (Instr.ldst :: (is ++ [Instr.stst]) ++ tail)[k]? := by
    rw [← List.getElem?_drop, htail]
  have hops : is <+: microProgram.drop (n + 1) :=
    ⟨.stst :: tail, by rw [← List.drop_drop, ← htail]; simp⟩
  have load : RunsTo 1 (start (BitVec.ofNat 7 n) b s)
      (atEntry (n + 1) (gridOfBlock b) (start (BitVec.ofNat 7 n) b s)) := by
    refine .of_laneStep rfl fun rest => ?_
    rw [laneStep_at rfl rfl (hentry 0) (execLdst_next.2 ⟨b, rfl, rfl⟩), advance_writeGrid (n := n) rfl]
    rfl
  have extract : RunsTo 1 (atEntry (n + 1 + is.length) g (start (BitVec.ofNat 7 n) b s))
      (respond .ok (blockOfGrid g).toList (goIdle (finishBlock b (blockOfGrid g) s))) := by
    refine .of_laneStep rfl fun rest => ?_
    have hlast : microProgram[n + 1 + is.length]? = some .stst := by
      rw [Nat.add_assoc, Nat.add_comm 1, hentry]
      simp
    rw [laneStep_at rfl rfl hlast (execStst_next.2 ⟨g, rfl, rfl⟩), finishBlock, gridOfBlock_blockOfGrid]
    rfl
  exact (load.trans (runsTo_gridSteps rfl hw hops hg)).trans extract

/-- The operations of a sequence work one part after the other. -/
theorem foldlM_gridStep?_append {ks : KeyWords} {is js : List Instr} {g g₁ g₂ : Grid}
    (hi : is.foldlM (gridStep? ks) g = some g₁) (hj : js.foldlM (gridStep? ks) g₁ = some g₂) :
    (is ++ js).foldlM (gridStep? ks) g = some g₂ := by
  rw [List.foldlM_append, hi]
  exact hj

/-- Generated rounds work as the fold of what each round does. -/
theorem foldlM_gridStep?_flatMap {ks : KeyWords} {round : Nat → List Instr} {f : Grid → Nat → Grid} {rs : List Nat}
    (hround : ∀ r ∈ rs, ∀ g, (round r).foldlM (gridStep? ks) g = some (f g r)) (g : Grid) :
    (rs.flatMap round).foldlM (gridStep? ks) g = some (rs.foldl f g) := by
  induction rs generalizing g with
  | nil => rfl
  | cons r rs ih =>
    exact foldlM_gridStep?_append (hround r (.head _) g) (ih (fun r hr => hround r (.tail _ hr)) _)

/-- A main round of the generator's ENC is `encRoundGrid` (R202, R206). -/
theorem foldlM_encRound (ks : KeyWords) (g : Grid) {r : Nat} (hr : r ≤ 10) :
    (encRound r).foldlM (gridStep? ks) g = some (encRoundGrid ks g r) := by
  simp [encRound, gridStep?, encRoundGrid, Nat.mod_eq_of_lt (show r < 16 by omega), hr]

/-- A main round of the generator's DEC is `decRoundGrid` (R202, R207). -/
theorem foldlM_decRound (ks : KeyWords) (g : Grid) {r : Nat} (hr : r ≤ 10) :
    (decRound r).foldlM (gridStep? ks) g = some (decRoundGrid ks g r) := by
  simp [decRound, gridStep?, decRoundGrid, Nat.mod_eq_of_lt (show r < 16 by omega), hr]

/-- The operations between the LDST and the STST of ENC (R202). -/
def encOps : List Instr :=
  [Instr.ark 0] ++ [1, 2, 3, 4, 5, 6, 7, 8, 9].flatMap encRound ++ [Instr.sub, .shr, .ark 10]

/-- The operations between the LDST and the STST of DEC (R202). -/
def decOps : List Instr :=
  [Instr.ark 10] ++ [9, 8, 7, 6, 5, 4, 3, 2, 1].flatMap decRound ++ [Instr.ishr, .isub, .ark 0]

/-- ENC's operations stand at entry 0, between LDST and STST (R202). -/
theorem encOps_stand_at : Instr.ldst :: (encOps ++ [Instr.stst]) <+: microProgram.drop 0 := by
  have : Instr.ldst :: (encOps ++ [Instr.stst]) = encProgram := rfl
  rw [this, List.drop_zero, microProgram, List.append_assoc]
  exact ⟨decProgram ++ keyexpProgram, rfl⟩

/-- DEC's operations stand at entry 42, between LDST and STST (R202). -/
theorem decOps_stand_at : Instr.ldst :: (decOps ++ [Instr.stst]) <+: microProgram.drop 42 := by
  have : Instr.ldst :: (decOps ++ [Instr.stst]) = decProgram := rfl
  rw [this, microProgram, List.append_assoc, List.drop_left' (show encProgram.length = 42 from rfl)]
  exact ⟨keyexpProgram, rfl⟩

/-- The operations of ENC take the loaded block to the State that `cipher` extracts (R206). -/
theorem foldlM_encOps (ks : KeyWords) (b : Block) :
    encOps.foldlM (gridStep? ks) (gridOfBlock b) = some (gridOfBlock (cipher ks b)) := by
  have rounds := foldlM_gridStep?_flatMap (rs := [1, 2, 3, 4, 5, 6, 7, 8, 9]) fun r hr g =>
    foldlM_encRound ks g ((show ∀ r ∈ [1, 2, 3, 4, 5, 6, 7, 8, 9], r ≤ 10 by decide) r hr)
  rw [cipher, gridOfBlock_blockOfGrid]
  exact foldlM_gridStep?_append (foldlM_gridStep?_append rfl (rounds _)) rfl

/-- The operations of DEC take the loaded block to the State that `invCipher` extracts (R207). -/
theorem foldlM_decOps (ks : KeyWords) (b : Block) :
    decOps.foldlM (gridStep? ks) (gridOfBlock b) = some (gridOfBlock (invCipher ks b)) := by
  have rounds := foldlM_gridStep?_flatMap (rs := [9, 8, 7, 6, 5, 4, 3, 2, 1]) fun r hr g =>
    foldlM_decRound ks g ((show ∀ r ∈ [9, 8, 7, 6, 5, 4, 3, 2, 1], r ≤ 10 by decide) r hr)
  rw [invCipher, gridOfBlock_blockOfGrid]
  exact foldlM_gridStep?_append (foldlM_gridStep?_append rfl (rounds _)) rfl

/-! ## ENC and DEC from acceptance to response -/

/-- A block command that is accepted under a schedule runs the sequence at its entry through (R201, R204, R205). -/
theorem runsTo_blockCommand {s : State} {ks : KeyWords} {req : Request} {more : List Request} {i : Instr}
    {is : List Instr} {n : Nat} {b out : Block} (hp : s.lane.port = req :: more) (hc : canAccept req.cmd s = true)
    (hk : s.keyValid = true) (hw : Holds s.w ks) (hd : decodeH req.cmd req.data = .ok i)
    (hx : ∀ u, exec i u = blockCommand req.cmd (BitVec.ofNat 7 n) b.toList u)
    (hseq : Instr.ldst :: (is ++ [Instr.stst]) <+: microProgram.drop n)
    (hg : is.foldlM (gridStep? ks) (gridOfBlock b) = some (gridOfBlock out)) :
    RunsTo (1 + (1 + is.length + 1)) s (afterBlock b out s) := by
  have accept : RunsTo 1 s (start (BitVec.ofNat 7 n) b (takeRequest s)) := .of_laneStep rfl fun rest => by
    rw [laneStep_accepts (s := { s with schedule := rest }) hp hc hd, hx]
    exact blockCommand_starts ((canAccept_takeRequest _ { s with schedule := rest }).trans hc) hk _ b
  have := accept.trans (runsTo_blockSequence (s := takeRequest s) hw hseq hg)
  rwa [blockOfGrid_gridOfBlock] at this

/-- Under the schedule `ks` the block command `cmd` runs from its acceptance to a response with `f` of its data. -/
def BlockCommandRuns (ks : KeyWords) (cmd : Byte) (f : Block → Block) : Prop :=
  ∀ (s : State) (b : Block) (more : List Request), s.lane.port = ⟨cmd, b.toList⟩ :: more → laneOpen s = true →
    s.keyValid = true → Holds s.w ks → RunsTo 43 s (afterBlock b (f b) s)

/-- ENC runs to `cipher` of its data (R206). -/
theorem enc_runs (ks : KeyWords) : BlockCommandRuns ks 0x02 (cipher ks) := fun _ b _ hp ho hk hw =>
  runsTo_blockCommand (n := 0) hp ho hk hw rfl (fun _ => rfl) encOps_stand_at (foldlM_encOps ks b)

/-- DEC runs to `invCipher` of its data (R207). -/
theorem dec_runs (ks : KeyWords) : BlockCommandRuns ks 0x03 (invCipher ks) := fun _ b _ hp ho hk hw =>
  runsTo_blockCommand (n := 42) hp ho hk hw rfl (fun _ => rfl) decOps_stand_at (foldlM_decOps ks b)

/-- Settles O42: `enc_runs`. -/
theorem encRunsToCiphertext : Obligations.EncRunsToCiphertext := by
  intro s b more rest ks hs hp ho hk hw
  rw [(enc_runs ks s b more hp ho hk hw).run_eq hs, afterBlock, takeRequest, hp]
  rfl

/-- Settles O43: `dec_runs`. -/
theorem decRunsToPlaintext : Obligations.DecRunsToPlaintext := by
  intro s b more rest ks hs hp ho hk hw
  rw [(dec_runs ks s b more hp ho hk hw).run_eq hs, afterBlock, takeRequest, hp]
  rfl

/-! ## KEYEXP from acceptance to response -/

/-- `W` with its first `n` words those of the key's expansion, the others as in `w` (R184, R208). Irreducible, so that
no comparison of two states unfolds the 44 words. -/
@[irreducible] def expandedTo (key : Block) (w : Vector (Content Word) 44) (n : Nat) : Vector (Content Word) 44 :=
  Vector.ofFn fun m : Fin 44 => if m.val < n then .holds (expand key)[m] else w[m]

@[simp] theorem getElem_expandedTo (key : Block) (w : Vector (Content Word) 44) (n : Nat) {m : Nat} (hm : m < 44) :
    (expandedTo key w n)[m] = if m < n then .holds (expand key)[m] else w[m] := by
  simp [expandedTo]

theorem expandedTo_zero (key : Block) (w : Vector (Content Word) 44) : expandedTo key w 0 = w :=
  Vector.ext fun m hm => by simp

theorem expandedTo_all (key : Block) (w : Vector (Content Word) 44) :
    expandedTo key w 44 = Vector.ofFn fun n : Fin 44 => .holds (expand key)[n] :=
  Vector.ext fun m hm => by simp [hm]

/-- Writing word `n` of the expansion extends its part of `W` by one word (R184). -/
theorem expandedTo_succ (key : Block) (w : Vector (Content Word) 44) {n : Nat} (hn : n < 44) :
    (expandedTo key w n).setIfInBounds n (.holds (expand key)[n]) = expandedTo key w (n + 1) :=
  Vector.ext fun m hm => by
    rw [Vector.getElem_setIfInBounds hm, getElem_expandedTo _ _ _ hm, getElem_expandedTo _ _ _ hm]
    by_cases h : n = m
    · subst h
      simp
    · simp [h, show m < n + 1 ↔ m < n by omega]

/-- The moving lane in the key expansion, at `KXW n`, the words before `n` written (R202, R208). -/
def atWord (key : Block) (n : Nat) (s : State) : State :=
  { s with w := expandedTo key s.w n, lane := { s.lane with upc := BitVec.ofNat 7 (84 + n) } }

/-- `KXW n` in its place writes word `n` of the expansion (R184). -/
theorem exec_kxw_atWord {key : Block} {s : State} {n : Nat} (hn : n < 44) (hd : s.lane.din = .holds key) :
    exec (.kxw (BitVec.ofNat 6 n)) (atWord key n s) = .next (atWord key (n + 1) s) := by
  have hnat : (BitVec.ofNat 6 n).toNat = n := Nat.mod_eq_of_lt (by omega)
  have hword : kxwWord n (atWord key n s) = some (expand key)[n] :=
    kxwWord_of_expansion hn hd fun m hm => by simp [atWord, hm]
  refine execKxw_next.2 ⟨by omega, (expand key)[n], by rw [hnat, hword], ?_⟩
  rw [hnat]
  simp [atWord, advance, writeW, expandedTo_succ key s.w hn, ← Nat.add_assoc, BitVec.ofNat_add]

/-- `KXW n` stands at entry `84 + n` (R202). -/
theorem microProgram_kxw : ∀ n < 44, microProgram[84 + n]? = some (Instr.kxw (BitVec.ofNat 6 n)) := by decide

/-- The micro-step at `KXW n` (R184, R204). -/
theorem laneStep_atWord {key : Block} {s : State} {n : Nat} (hb : s.lane.busy = true) (hn : n < 44)
    (hd : s.lane.din = .holds key) :
    laneStep (atWord key n s) = complete (ending (.kxw (BitVec.ofNat 6 n))) (atWord key (n + 1) s) :=
  laneStep_at hb rfl (microProgram_kxw n hn) (exec_kxw_atWord hn hd)

/-- The words before the last are written one after the other (R184, R208). -/
theorem runsTo_atWord {key : Block} {s : State} (hb : s.lane.busy = true) (hd : s.lane.din = .holds key) {n : Nat}
    (hn : n ≤ 43) : RunsTo n (atWord key 0 s) (atWord key n s) := by
  induction n with
  | zero => exact .refl _
  | succ n ih =>
    refine (ih (by omega)).trans (.of_laneStep rfl fun rest => ?_)
    have hlast : BitVec.ofNat 6 n ≠ 43 := fun h => by
      have : n % 64 = 43 := congrArg BitVec.toNat h
      omega
    have := laneStep_atWord (s := { s with schedule := rest }) hb (by omega : n < 44) hd
    rwa [ending, if_neg hlast] at this

/-- The engine after a key expansion of the moving lane: the key in DIN, the words of its expansion in `W`,
KEY_VALID set, the lane idle, the request taken and the response given (R205, R208). -/
def afterKeyexp (key : Block) (s : State) : State :=
  respond .ok [] (goIdle (setKeyValid true (atWord key 44 (start keyexpEntry key (takeRequest s)))))

/-- KEYEXP runs from its acceptance through its 44 words to its response (R204, R208). -/
theorem runsTo_keyexp {s : State} {key : Block} {more : List Request} (hp : s.lane.port = ⟨0x01, key.toList⟩ :: more)
    (hi : allIdle s = true) : RunsTo 45 s (afterKeyexp key s) := by
  let u := start keyexpEntry key (setKeyValid false (takeRequest s))
  have accept : RunsTo 1 s (atWord key 0 u) := by
    refine .of_laneStep rfl fun rest => ?_
    have hc := canAccept_takeRequest 0x01 { s with schedule := rest }
    rw [laneStep_accepts (s := { s with schedule := rest }) hp hi rfl, atWord, expandedTo_zero]
    exact execKeyexp_starts (hc.trans hi) key
  have last : RunsTo 1 (atWord key 43 u) (afterKeyexp key s) := .of_laneStep rfl fun rest =>
    laneStep_atWord (s := { u with schedule := rest }) rfl (by omega : 43 < 44) rfl
  exact (accept.trans (runsTo_atWord rfl rfl le_rfl)).trans last

/-- Settles O44: `runsTo_keyexp`. -/
theorem keyexpRunsToSchedule : Obligations.KeyexpRunsToSchedule := by
  intro s key more rest hs hp hi
  rw [(runsTo_keyexp hp hi).run_eq hs, afterKeyexp, takeRequest, hp, ← expandedTo_all key s.w]
  rfl

end Sys2Proof.Machine
end

section
/-! PROOFS. What the runs give the host: each request's run ends as `transact` says, and KEYEXP, ENC, DEC on the engine
give the block back (rules R201, R205, R210, R212). -/

namespace Sys2Proof.Machine

/-! ## Requests that are answered at acceptance -/

/-- An accepted command of a wrong length is answered with its length error (R241, R242, R245). -/
theorem laneStep_wrongLength {s : State} {req : Request} {more : List Request} {i : Instr}
    (hp : s.lane.port = req :: more) (hc : canAccept req.cmd s = true) (hd : decodeH req.cmd req.data = .ok i)
    (hl : req.data.length ≠ 16) :
    laneStep s = .next (raise (if req.cmd = 0x01 then .errKeyLen else .errBlkLen) (takeRequest s)) := by
  rw [laneStep_accepts hp hc hd]
  rw [← canAccept_takeRequest] at hc
  obtain ⟨h, rfl⟩ | ⟨h, rfl⟩ | ⟨h, rfl⟩ := decodeH_ok_iff.1 hd <;> rw [h] at hc ⊢
  · exact execKeyexp_wrongLength hc hl
  · exact blockCommand_wrongLength hc hl encEntry
  · exact blockCommand_wrongLength hc hl decEntry

/-- An accepted block command of 16 Bytes is answered with ERR_NOSCHED where there is no schedule (R243). -/
theorem laneStep_noSchedule {s : State} {req : Request} {more : List Request} {i : Instr} {b : Block}
    (hp : s.lane.port = req :: more) (hc : canAccept req.cmd s = true) (hd : decodeH req.cmd req.data = .ok i)
    (hb : req.data = b.toList) (hcmd : req.cmd ≠ 0x01) (hk : s.keyValid = false) :
    laneStep s = .next (raise .errNoSched (takeRequest s)) := by
  rw [laneStep_accepts hp hc hd]
  rw [← canAccept_takeRequest] at hc
  obtain ⟨h, -⟩ | ⟨h, rfl⟩ | ⟨h, rfl⟩ := decodeH_ok_iff.1 hd
  · exact absurd h hcmd
  · rw [h] at hc
    rw [hb]
    exact blockCommand_noSchedule hc hk encEntry b
  · rw [h] at hc
    rw [hb]
    exact blockCommand_noSchedule hc hk decEntry b

/-! ## The whole-transaction view -/

/-- The schedule that `scheduleOf?` finds is the one `W` holds (R212). -/
theorem holds_of_scheduleOf? {s : State} {ks : KeyWords} (h : scheduleOf? s = some ks) : Holds s.w ks := by
  obtain ⟨hheld, h⟩ := Option.dite_none_right_eq_some.1 h
  intro n
  rw [← Option.some.inj h, ← value?_eq_some]
  simp

/-- What a whole transaction can be: its number of steps, the state after it and its response (R201, R204, R212). -/
inductive Transacts (s : State) (req : Request) : Nat → State → Response → Prop where
  | reserved (e : Reject) (hd : decodeH req.cmd req.data = .error e) : Transacts s req 1 s ⟨.errCmd, []⟩
  | wrongLength (i : Instr) (hd : decodeH req.cmd req.data = .ok i) (hl : req.data.length ≠ 16) :
      Transacts s req 1 s ⟨if req.cmd = 0x01 then .errKeyLen else .errBlkLen, []⟩
  | noSchedule (i : Instr) (b : Block) (hd : decodeH req.cmd req.data = .ok i) (hb : req.data = b.toList)
      (hcmd : req.cmd ≠ 0x01) (hk : s.keyValid = false) : Transacts s req 1 s ⟨.errNoSched, []⟩
  | keyexp (key : Block) (hreq : req = ⟨0x01, key.toList⟩) : Transacts s req 45 (finishKeyexp key s) ⟨.ok, []⟩
  | block (cmd : Byte) (f : Block → Block) (b : Block) (ks : KeyWords) (hreq : req = ⟨cmd, b.toList⟩)
      (hf : cmd = 0x02 ∧ f = cipher ks ∨ cmd = 0x03 ∧ f = invCipher ks) (hk : s.keyValid = true)
      (hw : Holds s.w ks) : Transacts s req 43 (finishBlock b (f b) s) ⟨.ok, (f b).toList⟩

/-- What `transact` makes of a block command of 16 Bytes (R206, R207, R212). -/
theorem transact_block {s : State} {cmd : Byte} {b : Block} {f : KeyWords → Block → Block}
    (hf : cmd = 0x02 ∧ f = cipher ∨ cmd = 0x03 ∧ f = invCipher) :
    transact s ⟨cmd, b.toList⟩ = if s.keyValid = false then some (s, ⟨.errNoSched, []⟩)
      else (scheduleOf? s).map fun ks => (finishBlock b (f ks b) s, ⟨.ok, (f ks b).toList⟩) := by
  obtain ⟨rfl, rfl⟩ | ⟨rfl, rfl⟩ := hf <;> simp [transact, decodeH, encode]

/-- The steps of a block command of 16 Bytes: one, and 42 more where it runs (R204). -/
theorem transactionSteps_block {s : State} {cmd : Byte} {b : Block} (hcmd : cmd = 0x02 ∨ cmd = 0x03) :
    transactionSteps s ⟨cmd, b.toList⟩ = if s.keyValid then 43 else 1 := by
  obtain rfl | rfl := hcmd <;> simp [transactionSteps, decodeH, encode, Config.blockBytes]

/-- The steps of a KEYEXP of 16 Bytes (R204). -/
theorem transactionSteps_keyexp {s : State} {key : Block} : transactionSteps s ⟨0x01, key.toList⟩ = 45 := by
  simp [transactionSteps, decodeH, encode, Config.blockBytes]

/-- A block command of 16 Bytes is answered with ERR_NOSCHED or completes (R206, R207, R243). -/
theorem transacts_of_block {s t : State} {cmd : Byte} {i : Instr} {b : Block} {r : Response}
    {f : KeyWords → Block → Block} (hf : cmd = 0x02 ∧ f = cipher ∨ cmd = 0x03 ∧ f = invCipher)
    (hd : decodeH cmd b.toList = .ok i) (ht : transact s ⟨cmd, b.toList⟩ = some (t, r)) :
    Transacts s ⟨cmd, b.toList⟩ (transactionSteps s ⟨cmd, b.toList⟩) t r := by
  have hcmd : cmd = 0x02 ∨ cmd = 0x03 := hf.imp And.left And.left
  have hne : cmd ≠ 0x01 := by
    obtain rfl | rfl := hcmd <;> decide
  rw [transact_block hf] at ht
  rw [transactionSteps_block hcmd]
  cases hk : s.keyValid with
  | false =>
    simp only [hk, if_true, Option.some.injEq, Prod.mk.injEq] at ht
    obtain ⟨rfl, rfl⟩ := ht
    exact .noSchedule i b hd rfl hne hk
  | true =>
    simp only [hk, Bool.true_eq_false, if_false, Option.map_eq_some_iff, Prod.mk.injEq] at ht
    obtain ⟨ks, hks, rfl, rfl⟩ := ht
    have hfks : cmd = 0x02 ∧ f ks = cipher ks ∨ cmd = 0x03 ∧ f ks = invCipher ks :=
      hf.imp (And.imp_right (congrFun · ks)) (And.imp_right (congrFun · ks))
    exact .block cmd (f ks) b ks rfl hfks hk (holds_of_scheduleOf? hks)

/-- Whatever `transact` completes is one of the cases of `Transacts` (R212). -/
theorem transacts_of_transact {s t : State} {req : Request} {r : Response} (ht : transact s req = some (t, r)) :
    Transacts s req (transactionSteps s req) t r := by
  cases hd : decodeH req.cmd req.data with
  | error e =>
    obtain ⟨rfl, rfl⟩ : s = t ∧ _ = r := by simpa [transact, hd] using ht
    rw [show transactionSteps s req = 1 by simp [transactionSteps, hd]]
    exact .reserved e hd
  | ok i =>
    cases hb : blockOfBytes? req.data with
    | none =>
      have hl := blockOfBytes?_none.1 hb
      obtain ⟨rfl, rfl⟩ : s = t ∧ _ = r := by simpa [transact, hd, hb] using ht
      rw [show transactionSteps s req = 1 by simp [transactionSteps, hd, hl, Config.blockBytes]]
      exact .wrongLength i hd hl
    | some b =>
      obtain ⟨cmd, data⟩ := req
      obtain ⟨-, rfl⟩ := blockOfBytes?_some.1 hb
      obtain ⟨rfl, rfl⟩ | ⟨rfl, rfl⟩ | ⟨rfl, rfl⟩ := decodeH_ok_iff.1 hd
      · obtain ⟨rfl, rfl⟩ : finishKeyexp b s = t ∧ _ = r := by simpa [transact, decodeH, encode] using ht
        rw [transactionSteps_keyexp]
        exact .keyexp b rfl
      · exact transacts_of_block (.inl ⟨rfl, rfl⟩) rfl ht
      · exact transacts_of_block (.inr ⟨rfl, rfl⟩) rfl ht

/-- The whole-transaction view leaves the port and the record of responses to the run (R83, R212). -/
theorem Transacts.interface {s t : State} {req : Request} {r : Response} {n : Nat} (h : Transacts s req n t r) :
    t.lane.port = s.lane.port ∧ t.lane.resp = s.lane.resp := by
  cases h <;> exact ⟨rfl, rfl⟩

/-! ## The two views -/

/-- On an idle lane at entry 0 a completed block transform is `finishBlock` and the response (R205, R212). -/
theorem afterBlock_of_idle {s : State} (hb : s.lane.busy = false) (hu : s.lane.upc = 0) (b out : Block) :
    afterBlock b out s = respond .ok out.toList (takeRequest (finishBlock b out s)) := by
  simp [afterBlock, respond, goIdle, finishBlock, takeRequest, Content.discard, hb, hu]

/-- On an idle lane at entry 0 a completed key expansion is `finishKeyexp` and the response (R205, R212). -/
theorem afterKeyexp_of_idle {s : State} (hb : s.lane.busy = false) (hu : s.lane.upc = 0) (key : Block) :
    afterKeyexp key s = respond .ok [] (takeRequest (finishKeyexp key s)) := by
  simp [afterKeyexp, atWord, start, setKeyValid, respond, goIdle, finishKeyexp, takeRequest, Content.discard, hb, hu,
    expandedTo_all]

/-- A lane that accepts a request and is given its turns ends as the whole transaction says, the request taken and the
response given (R212, R213). -/
theorem Transacts.runsTo {s t : State} {req : Request} {r : Response} {more : List Request} {n : Nat}
    (h : Transacts s req n t r) (hp : s.lane.port = req :: more) (hc : canAccept req.cmd s = true)
    (hu : s.lane.upc = 0) : RunsTo n s (respond r.status r.out (takeRequest t)) := by
  have hidle := idle_of_canAccept hc
  cases h with
  | reserved e hd =>
    exact .of_laneStep rfl fun rest => laneStep_reserved (s := { s with schedule := rest }) hp hc hd
  | wrongLength i hd hl =>
    exact .of_laneStep rfl fun rest => laneStep_wrongLength (s := { s with schedule := rest }) hp hc hd hl
  | noSchedule i b hd hb hcmd hk =>
    exact .of_laneStep rfl fun rest => laneStep_noSchedule (s := { s with schedule := rest }) hp hc hd hb hcmd hk
  | keyexp key hreq =>
    subst hreq
    rw [← afterKeyexp_of_idle hidle hu]
    exact runsTo_keyexp hp hc
  | block cmd f b ks hreq hf hk hw =>
    subst hreq
    rw [← afterBlock_of_idle hidle hu]
    obtain ⟨rfl, rfl⟩ | ⟨rfl, rfl⟩ := hf
    · exact enc_runs ks s b more hp hc hk hw
    · exact dec_runs ks s b more hp hc hk hw

/-- Settles O45: `transact` is one of the cases of `Transacts`, each of which runs. -/
theorem transactionViewsAgree : Obligations.TransactionViewsAgree := by
  intro s t req r more rest hs hp hc hu ht
  have h := transacts_of_transact ht
  obtain ⟨hport, hresp⟩ := h.interface
  rw [(h.runsTo hp hc hu).run_eq hs, takeRequest, hport, hp, ← hresp]
  rfl

/-! ## The round trip on the engine -/

/-- An idle lane is open while the other lanes are idle too (R274, R275). -/
theorem laneOpen_of_othersIdle {s : State} (hb : s.lane.busy = false) (ho : ∀ l ∈ s.others, l.busy = false) :
    laneOpen s = true := by
  have hnone : ∀ l ∈ s.lanes, l.runsKeyexp = false := fun l hl => runsKeyexp_of_idle <| by
    obtain rfl | hl := mem_lanes.1 hl
    · exact hb
    · exact ho l hl
  simpa [laneOpen, hb] using hnone

/-- KEYEXP, a block command `f` and a block command `h` that undoes it, presented to an idle engine, respond with
(OK, -), `f` of the block, and the block (R210). -/
theorem roundTrip_of_runs {key b : Block} {cmd other : Byte} {f h : Block → Block}
    (hf : BlockCommandRuns (expand key) cmd f) (hh : BlockCommandRuns (expand key) other h) (hinv : h (f b) = b)
    {s : State} {more : List Request} {rest : List Event} (hs : s.schedule = List.replicate 131 (.turn s.laneNo) ++ rest)
    (hp : s.lane.port = ⟨0x01, key.toList⟩ :: ⟨cmd, b.toList⟩ :: ⟨other, (f b).toList⟩ :: more)
    (hi : allIdle s = true) :
    ∃ t, run 131 s = .next t ∧
      t.lane.resp = s.lane.resp ++ [⟨.ok, []⟩, ⟨.ok, (f b).toList⟩, ⟨.ok, b.toList⟩] := by
  have hothers : ∀ l ∈ s.others, l.busy = false := fun l hl => by
    simpa using List.all_eq_true.1 hi l (mem_lanes.2 (.inr hl))
  have hw : Holds (afterKeyexp key s).w (expand key) := fun n => by simp [afterKeyexp, atWord]
  have first := runsTo_keyexp hp hi
  have second := hf (afterKeyexp key s) b _ (congrArg List.tail hp) (laneOpen_of_othersIdle rfl hothers) rfl hw
  have third := hh (afterBlock b (f b) (afterKeyexp key s)) (f b) more (congrArg (fun port => port.tail.tail) hp)
    (laneOpen_of_othersIdle rfl hothers) rfl hw
  refine ⟨_, ((first.trans second).trans third).run_eq hs, ?_⟩
  simp [afterBlock, afterKeyexp, finishBlock, atWord, hinv]

/-- Settles O47: `roundTrip_of_runs`, ENC undone by DEC and DEC by ENC. -/
theorem engineRoundTrip : Obligations.EngineRoundTrip := by
  rintro key b cmd other (⟨rfl, rfl⟩ | ⟨rfl, rfl⟩)
  · exact ⟨cipher (expand key) b, fun s more rest hs hp hi =>
      roundTrip_of_runs (enc_runs _) (dec_runs _) (invCipher_cipher _ b) hs hp hi⟩
  · exact ⟨invCipher (expand key) b, fun s more rest hs hp hi =>
      roundTrip_of_runs (dec_runs _) (enc_runs _) (cipher_invCipher _ b) hs hp hi⟩

end Sys2Proof.Machine
end

section
/-! PROOFS. The stops that no run reaches, and the errors a request is answered with: where a micro-operation reads no
value, why the invariant excludes it, and the response to a request that fails its checks (rules R240 to R249, R272,
R279). -/

namespace Sys2Proof.Machine

/-! ## The invariant excludes the stops -/

/-- A schedule that is the expansion of a key holds a value in every word (R26, R272). -/
theorem HoldsSchedule.allWordsHeld {key : Block} {w : Vector (Content Word) 44} (h : HoldsSchedule key w) :
    AllWordsHeld w := fun n => by rw [h n]; rfl

/-- A lane that meets the invariant has what the rest of its run reads, where KEY_VALID implies that every word was
written (R22, R26, R184, R272). -/
theorem Lane.Ok.readsHeld {keyValid : Bool} {w : Vector (Content Word) 44} {l : Lane} (h : l.Ok keyValid w)
    (hv : keyValid = true → AllWordsHeld w) : l.ReadsHeld w where
  din hb := by
    obtain hu | hu := Nat.lt_or_ge l.upc.toNat 84
    · obtain ⟨-, hd, -⟩ := h.block hb hu
      exact hd
    · obtain ⟨-, -, key, hd, -⟩ := h.keyexp hb hu
      rw [hd]
      rfl
  grid hb hu h0 h42 := by
    obtain ⟨-, -, hg⟩ := h.block hb hu
    exact hg.2 ⟨h0, h42⟩
  words hb hu := hv (h.block hb hu).1
  built hb n hn := by
    obtain ⟨-, -, key, -, hw⟩ := h.keyexp hb (by omega)
    rw [hw n hn]
    rfl

/-- The engine's invariant implies R272's own: what the running lanes will read has been written. -/
theorem Inv.valuesHeld {s : State} (h : Inv s) : ValuesHeld s := by
  have valid : s.keyValid = true → AllWordsHeld s.w := fun hk => by
    obtain ⟨key, hw⟩ := h.schedule hk
    exact hw.allWordsHeld
  exact ⟨valid, fun l hl => (h.laneOk hl).readsHeld valid⟩

/-- Settles O53: `Inv.valuesHeld`, under which `step_held` gives every step a next state. -/
theorem noFaultUnderInvariant : Obligations.NoFaultUnderInvariant := fun _ h => by
  obtain ⟨t, ht, -⟩ := step_held h.valuesHeld
  exact ⟨t, ht⟩

/-! ## Micro-operations that read no value -/

/-- A read of an element that holds no value stops (R249, R272). -/
theorem withValue_of_none {α : Type} {o : Option α} (h : o = none) (k : α → Result) :
    withValue o k = .fault .noValueRead := by
  rw [h, withValue_none]

/-- A word of `W` that holds no value gives none (R24, R272). -/
theorem readW_of_noValue {n : Nat} {s : State} (h : s.w[n]?.map Content.value? = some none) : readW n s = none := by
  obtain ⟨c, hc, hnone⟩ := Option.map_eq_some_iff.1 h
  rw [readW, hc, Option.bind_some, hnone]

/-- A round key with a word that holds no value cannot be read (R25, R272). -/
theorem readRoundKey_of_none {r : Nat} {s : State} (col : Fin 4) (h : readW (4 * r + col.val) s = none) :
    readRoundKey r s = none := by
  refine Option.eq_none_iff_forall_ne_some.2 fun k hk => ?_
  have hword := readRoundKey_some.1 hk col
  rw [h] at hword
  cases hword

/-- The first four `KXW` have no word to write where DIN holds no value (R184, R272). -/
theorem kxwWord_of_noDin {i : Nat} {s : State} (hi : i < 4) (hd : s.lane.din.value? = none) : kxwWord i s = none := by
  rw [kxwWord, Config.keyStride, if_pos hi, hd, Option.map_none]

/-- `KXW i` has no word to write where one of the two it computes it from holds no value (R184, R272). -/
theorem kxwWord_of_none {i : Nat} {s : State} (hi : 4 ≤ i) (h : readW (i - 1) s = none ∨ readW (i - 4) s = none) :
    kxwWord i s = none := by
  rw [kxwWord, Config.keyStride, if_neg (Nat.not_lt_of_le hi)]
  obtain h | h := h <;> rw [h]
  cases readW (i - 1) s <;> rfl

/-- A State-to-State micro-operation stops where `S` holds no value (R150, R272). -/
theorem transform_of_noValue (f : Grid → Grid) {s : State} (h : s.lane.grid.value? = none) :
    transform f s = .fault .noValueRead := withValue_of_none h _

/-- `ARK r` stops where its round key cannot be read, or `S` holds no value (R160, R272). -/
theorem execArk_of_noValue {r : BitVec 4} {s : State} (hr : r.toNat ≤ 10)
    (h : readRoundKey r.toNat s = none ∨ s.lane.grid.value? = none) : execArk r s = .fault .noValueRead := by
  rw [execArk, Config.rounds, if_pos hr]
  cases hk : readRoundKey r.toNat s with
  | none => rfl
  | some k => exact transform_of_noValue (arkGrid k) (h.resolve_left (by simp [hk]))

/-- `KXW i` stops where it has no word to write (R184, R272). -/
theorem execKxw_of_none {i : BitVec 6} {s : State} (hi : i.toNat < 44) (h : kxwWord i.toNat s = none) :
    execKxw i s = .fault .noValueRead := by
  rw [execKxw, Config.keyWords, if_pos hi]
  exact withValue_of_none h _

/-- Settles O28: DIN stops `LDST` and the first four `KXW`, `S` the operations on the State, a word of `W` those that
read it. -/
theorem noValueReadFaults : Obligations.NoValueReadFaults := by
  refine fun s => ⟨fun hd => withValue_of_none hd _, fun hg => ?_, fun r col hr hw => ?_, fun hd i hi =>
    execKxw_of_none (by omega) (kxwWord_of_noDin hi hd), fun i low high hw => ?_⟩
  · exact ⟨withValue_of_none hg _, transform_of_noValue subGrid hg, transform_of_noValue isubGrid hg,
      transform_of_noValue shrGrid hg, transform_of_noValue ishrGrid hg, transform_of_noValue mixGrid hg,
      transform_of_noValue imixGrid hg, fun r hr => execArk_of_noValue hr (.inr hg)⟩
  · exact execArk_of_noValue hr (.inl (readRoundKey_of_none col (readW_of_noValue hw)))
  · exact execKxw_of_none (by omega) (kxwWord_of_none low (hw.imp readW_of_noValue readW_of_noValue))

/-! ## Requests answered with an error -/

/-- Settles O34: the five codes, and each below 5. -/
theorem statusCodes : Obligations.StatusCodes := by
  refine ⟨rfl, rfl, rfl, rfl, rfl, fun st => ?_⟩
  cases st <;> decide

/-- A request answered with an error leaves the port, one response is added, and nothing else changes (R246). -/
theorem raise_takeRequest {s : State} {req : Request} {more : List Request} (hp : s.lane.port = req :: more)
    (e : Status) : raise e (takeRequest s) =
      { s with lane := { s.lane with port := more, resp := s.lane.resp ++ [⟨e, []⟩] } } := by
  rw [raise, respond, takeRequest, hp, List.tail_cons]

/-- A request with a block command's code decodes to that command, which is not KEYEXP (R82). -/
theorem decodeH_block {cmd : Byte} (hcmd : cmd = 0x02 ∨ cmd = 0x03) (data : List Byte) :
    cmd ≠ 0x01 ∧ ∃ i, decodeH cmd data = .ok i := by
  obtain rfl | rfl := hcmd
  · exact ⟨by decide, .enc data, rfl⟩
  · exact ⟨by decide, .dec data, rfl⟩

/-- A command other than KEYEXP is accepted where the lane is open (R274, R275). -/
theorem canAccept_of_laneOpen {cmd : Byte} {s : State} (hcmd : cmd ≠ 0x01) (ho : laneOpen s = true) :
    canAccept cmd s = true := by
  rw [canAccept, if_neg hcmd, ho]

/-- Settles O36: `laneStep_reserved`. -/
theorem reservedCommandAnswered : Obligations.ReservedCommandAnswered := by
  intro s cmd data more hcmd hp ho
  have hne : cmd ≠ 0x01 := by
    rintro rfl
    exact absurd hcmd (by decide)
  rw [laneStep_reserved hp (canAccept_of_laneOpen hne ho) (decodeH_reserved_iff.2 hcmd), raise_takeRequest hp]

/-- Settles O37: `laneStep_wrongLength`, for KEYEXP and for the block commands. -/
theorem wrongLengthAnswered : Obligations.WrongLengthAnswered := by
  refine fun s data more hl => ⟨fun hp hi => ?_, fun cmd hcmd hp ho => ?_⟩
  · rw [laneStep_wrongLength hp hi rfl hl, if_pos rfl, raise_takeRequest hp]
  · obtain ⟨hne, i, hd⟩ := decodeH_block hcmd data
    rw [laneStep_wrongLength hp (canAccept_of_laneOpen hne ho) hd hl, if_neg hne, raise_takeRequest hp]

/-- Settles O38: `laneStep_noSchedule`, the 16 Bytes being a block. -/
theorem noScheduleAnswered : Obligations.NoScheduleAnswered := by
  intro s cmd data more hcmd hl hk hp ho
  obtain ⟨hne, i, hd⟩ := decodeH_block hcmd data
  obtain ⟨b, hb⟩ := Option.ne_none_iff_exists'.1 fun hnone => blockOfBytes?_none.1 hnone hl
  obtain ⟨-, hb⟩ := blockOfBytes?_some.1 hb
  rw [laneStep_noSchedule hp (canAccept_of_laneOpen hne ho) hd hb hne hk, raise_takeRequest hp]

end Sys2Proof.Machine
end

section
/-! PROOFS. Which requests are accepted and how long the others are held, what a reset event keeps, and which steps
change the shared schedule (rules R201, R252, R270, R274 to R276). -/

namespace Sys2Proof.Machine

/-! ## Acceptance and waiting -/

/-- What KEYEXP waits for: every lane idle (R275). -/
theorem allIdle_iff {s : State} : allIdle s = true ↔ ∀ l ∈ s.lanes, l.busy = false := by
  simp [allIdle]

/-- What any other request waits for: its own lane idle, and no lane in a key expansion (R274, R275). -/
theorem laneOpen_iff {s : State} :
    laneOpen s = true ↔ s.lane.busy = false ∧ ∀ l ∈ s.lanes, ¬(l.busy = true ∧ 84 ≤ l.upc.toNat) := by
  simp only [laneOpen, Bool.and_eq_true, List.all_eq_true, Bool.not_eq_true', ← runsKeyexp_iff, Bool.not_eq_true]

/-- An idle lane with nothing presented waits (R252). -/
theorem laneStep_waits {s : State} (hb : s.lane.busy = false) (hp : s.lane.port = []) : laneStep s = .next s := by
  simp [laneStep, hb, hostStep, hp]

/-- An idle lane whose request cannot be accepted yet holds it, and nothing happens (R274, R275). -/
theorem laneStep_holds {s : State} {req : Request} {more : List Request} (hb : s.lane.busy = false)
    (hp : s.lane.port = req :: more) (hc : canAccept req.cmd s = false) : laneStep s = .next s := by
  simp [laneStep, hb, hostStep, hp, hc]

/-- A micro-step leaves the requests at its lane's port (R201, R274). -/
theorem microStep_keeps_port {s t : State} (h : microStep s = .next t) : t.lane.port = s.lane.port := by
  cases microStep_effect h with
  | stateWritten => rfl
  | blockEnded => rfl
  | wordWritten => rfl
  | scheduleEnded => rfl

/-- Settles O39: the two acceptance conditions, the two ways an idle lane waits, and `microStep_keeps_port`. -/
theorem heldRequestsWait : Obligations.HeldRequestsWait := by
  refine ⟨fun s => allIdle_iff, fun s cmd hcmd => ?_, fun s req more hb hp hc => laneStep_holds hb hp hc,
    fun s hb hp => laneStep_waits hb hp, fun s t hb h => ?_⟩
  · rw [canAccept, if_neg hcmd, laneOpen_iff]
  · rw [laneStep, if_pos hb] at h
    exact microStep_keeps_port h

/-! ## The reset event -/

/-- Resetting lanes keeps, lane by lane, whatever resetting one lane keeps (R270). -/
theorem map_resetLanesFrom {α : Type} {f : Lane → α} (hf : ∀ k l, f (resetLane k l) = f l) (n : Nat)
    (ls : List Lane) : (resetLanesFrom n ls).map f = ls.map f := by
  induction ls generalizing n with
  | nil => rfl
  | cons l ls ih => rw [resetLanesFrom, List.map_cons, List.map_cons, hf, ih]

/-- Settles O50: a reset event resets every lane by `resetEngine_lanes`, and `resetLane` keeps port and responses. -/
theorem resetEventResetsEngine : Obligations.ResetEventResetsEngine := by
  intro s rest hs
  have hstep : step s = .next (resetEngine { s with schedule := rest }) := by simp [step, engineStep, hs]
  refine ⟨_, hstep, rfl, rfl, resetW_value?, ?_, ?_, fun l hl => ?_⟩
  · rw [resetEngine_lanes]
    exact map_resetLanesFrom (fun _ _ => rfl) 0 s.lanes
  · rw [resetEngine_lanes]
    exact map_resetLanesFrom (fun _ _ => rfl) 0 s.lanes
  · rw [resetEngine_lanes] at hl
    obtain ⟨k, a, rfl⟩ := mem_resetLanesFrom hl
    exact ⟨rfl, rfl, rfl, rfl, rfl⟩

/-! ## Who changes the schedule -/

/-- The two shared elements that make up the key schedule are as they were (R26, R276). -/
structure SameSchedule (s t : State) : Prop where
  w : t.w = s.w
  keyValid : t.keyValid = s.keyValid

/-- Lane `l` presents a KEYEXP of 16 Bytes: the one request whose acceptance starts a key expansion (R201, R241). -/
def Lane.PresentsKeyexp (l : Lane) : Prop :=
  ∃ (data : List Byte) (more : List Request), l.port = ⟨0x01, data⟩ :: more ∧ data.length = 16

/-- A micro-step of a block transform changes no word of `W` and not KEY_VALID: KXW stands in the key expansion alone
(R203, R276). -/
theorem microStep_sameSchedule {s t : State} (hu : s.lane.upc.toNat < 84) (h : microStep s = .next t) :
    SameSchedule s t := by
  cases microStep_effect h with
  | stateWritten => exact ⟨rfl, rfl⟩
  | blockEnded => exact ⟨rfl, rfl⟩
  | wordWritten n v hn hupc => omega
  | scheduleEnded v hupc => omega

/-- The step of an idle lane changes the schedule only where it accepts a KEYEXP of 16 Bytes (R201, R276). -/
theorem hostStep_sameSchedule {s t : State} (hn : ¬(allIdle s = true ∧ s.lane.PresentsKeyexp))
    (h : hostStep s = .next t) : SameSchedule s t := by
  obtain hs | ⟨⟨cmd, data⟩, more, hp, hc, ⟨e, hs⟩ | ⟨b, hcmd, hdata, -⟩ | ⟨b, entry, -, -, -, hs⟩⟩ :=
    hostStep_cases s
  · cases hs.symm.trans h
    exact ⟨rfl, rfl⟩
  · cases hs.symm.trans h
    exact ⟨rfl, rfl⟩
  · obtain rfl : cmd = 0x01 := hcmd
    obtain rfl : data = b.toList := hdata
    exact absurd ⟨hc, b.toList, more, hp, by simp⟩ hn
  · cases hs.symm.trans h
    exact ⟨rfl, rfl⟩

/-- A lane's step changes the schedule only where the lane runs a KEYEXP or accepts one of 16 Bytes (R276). -/
theorem laneStep_sameSchedule {s t : State} (hr : s.lane.runsKeyexp = false)
    (hn : ¬(s.lane.busy = false ∧ allIdle s = true ∧ s.lane.PresentsKeyexp)) (h : laneStep s = .next t) :
    SameSchedule s t := by
  unfold laneStep at h
  split at h
  · next hb =>
    refine microStep_sameSchedule (Nat.lt_of_not_le fun h84 => ?_) h
    simp [runsKeyexp_iff.2 ⟨hb, h84⟩] at hr
  · next hb => exact hostStep_sameSchedule (fun ha => hn ⟨Bool.eq_false_of_not_eq_true hb, ha⟩) h

/-- Settles O54: `laneStep_sameSchedule`, carried to the engine's step by `step_cases`, the lane that moves being one of
the lanes. -/
theorem scheduleReadOnly : Obligations.ScheduleReadOnly := by
  refine ⟨fun s t h hr hn => ?_, fun s t h hchanged => ?_⟩
  · obtain ⟨hw, hk⟩ := laneStep_sameSchedule hr hn h
    exact ⟨hw, hk⟩
  · obtain ⟨rest, hreset, -⟩ | ⟨u, hu, hl, hw, hk, -⟩ := step_cases s
    · exact .inl ⟨rest, hreset⟩
    · have hmem : u.lane ∈ s.lanes := hl ▸ lane_mem_lanes u
      have hidle : allIdle u = allIdle s := by rw [allIdle, hl, allIdle]
      refine .inr (or_iff_not_imp_left.2 fun hnone => ?_)
      have hr : u.lane.runsKeyexp = false := Bool.eq_false_of_not_eq_true fun hr => hnone ⟨_, hmem, hr⟩
      by_contra hn
      obtain ⟨hw', hk'⟩ := laneStep_sameSchedule hr
        (fun ⟨_, ha, hp⟩ => hn ⟨hidle ▸ ha, u.lane, hmem, hp⟩) (hu.symm.trans h)
      exact hchanged.elim (absurd (hw'.trans hw)) (absurd (hk'.trans hk))

end Sys2Proof.Machine
end
